-- ==== Sys2Proof/Word.lean ====
section
/-! DEFINITION. The data types of the block: bytes, 16-byte blocks and keys, 3-byte tags, 128-bit
counters and 32-bit event counters (00_scope.md R6, R8). -/

namespace Sys2Proof

/-- An 8-bit unsigned value (00_scope.md R8). -/
abbrev Byte := BitVec 8

/-- A 16-byte buffer, `BLOCK = 16`; index 0 is the first byte (00_scope.md R6, R8). It is a byte
string: only `dbl` and `tri` read it as a number (20_memory.md R35). -/
abbrev Block := Vector Byte 16

/-- An opaque 16-byte secret, `KEY_LEN = 16` (00_scope.md R6, 10_state.md R18). -/
abbrev Key := Vector Byte 16

/-- A truncated tag, `TAG_LEN = 3` (00_scope.md R6, 41_ocb_core.md R91). -/
abbrev Tag := Vector Byte 3

/-- A 128-bit packet counter, whose arithmetic wraps modulo 2^128 (00_scope.md R10, 42_iv_state.md R97). -/
abbrev Counter := BitVec 128

/-- A 32-bit event counter, `COUNTER_WIDTH = 32` (00_scope.md R7, 10_state.md R23 to R26). -/
abbrev EventCount := BitVec 32

/-- The 48 bytes of one random draw (44_cryptstate.md R121, 60_exceptions.md R156). -/
abbrev Draw := Vector Byte 48

end Sys2Proof
end

