-- ==== Sys2Proof/Config.lean ====
section
/-! DEFINITION. What an implementation fixes: the permutation port, the largest plaintext and the
tolerance window (00_scope.md R7), and the free answers of the random-source port. -/

namespace Sys2Proof

/-- The block-permutation port, `E` and `Einv`: a pair of total functions on a 16-byte key and a
16-byte block (10_state.md R27). -/
structure PermPort where
  /-- The forward keyed permutation `E(K, B)`. -/
  E : Key → Block → Block
  /-- Its inverse `Einv(K, B)`. -/
  Einv : Key → Block → Block

/-- The law of the port: `Einv(K, E(K, B)) = B` and `E(K, Einv(K, B)) = B` (10_state.md R27). -/
def PermPort.Lawful (π : PermPort) : Prop :=
  ∀ K B, π.Einv K (π.E K B) = B ∧ π.E K (π.Einv K B) = B

/-- The tolerance window's parameters. The constraint of 00_scope.md R7 is part of the type, so a
configuration that breaks it cannot be built: this is how the model refuses one. -/
structure Window where
  /-- How far behind DIV a candidate may be and still be late. -/
  lateMax : Nat
  /-- How far ahead of DIV a candidate may be and still be good or lost. -/
  aheadMax : Nat
  /-- `1 <= AHEAD_MAX`. -/
  ahead_pos : 1 ≤ aheadMax
  /-- `LATE_MAX + AHEAD_MAX <= 255`. -/
  bound : lateMax + aheadMax ≤ 255

/-- The parameters a command's meaning takes (00_scope.md R7). -/
structure Params where
  /-- PERM. -/
  port : PermPort
  /-- MAX_PLAIN. -/
  maxPlain : Nat
  /-- LATE_MAX and AHEAD_MAX. -/
  window : Window

/-- PERM, a free value: for each key some permutation of the 16-byte blocks, and nothing says which
(00_scope.md R7, log 4). -/
opaque Config.perm : Key → Equiv.Perm Block

/-- How far MAX_PLAIN lies above 512, a free value (00_scope.md R7, log 5). -/
opaque Config.maxPlainAbove512 : Fin 64989

/-- What the random-source port answers to its `n`-th call when the run's input gives no answer, a
free value (60_exceptions.md R156, log 3). -/
opaque Config.rngAnswer : Nat → Option Draw

/-- The permutation port of the machine (10_state.md R27). -/
def Config.port : PermPort where
  E := fun K B => Config.perm K B
  Einv := fun K B => (Config.perm K).symm B

/-- MAX_PLAIN: some value with `512 <= MAX_PLAIN <= 65500` (00_scope.md R7). -/
def Config.maxPlain : Nat := Config.maxPlainAbove512.val + 512

/-- `LATE_MAX = 29`, `AHEAD_MAX = 127`, the spec's values (00_scope.md R7, log 6). -/
def Config.window : Window where
  lateMax := 29
  aheadMax := 127
  ahead_pos := by decide
  bound := by decide

/-- The parameters of the machine. -/
def Config.params : Params where
  port := Config.port
  maxPlain := Config.maxPlain
  window := Config.window

end Sys2Proof
end

