-- ==== Sys2Proof/Syntax.lean ====
section
/-! DEFINITION. The twelve commands of the opcode table, one constructor each. -/

namespace Sys2Proof

/-- A command: its opcode (the constructor) and its raw payload. The pair is the spec's own form of a
command (30_encoding.md R47); the payload's layout is checked by the command's meaning, because a
payload that breaks it raises IllegalCommand (30_encoding.md R66). -/
inductive Instr where
  /-- OPC 0x10 (40_galois_field.md R71). -/
  | gfZero (payload : List Byte)
  /-- OPC 0x11 (40_galois_field.md R72). -/
  | gfXor (payload : List Byte)
  /-- OPC 0x12 (40_galois_field.md R75). -/
  | gfDouble (payload : List Byte)
  /-- OPC 0x13 (40_galois_field.md R77). -/
  | gfTriple (payload : List Byte)
  /-- OPC 0x20 (41_ocb_core.md R93). -/
  | ocbEncrypt (payload : List Byte)
  /-- OPC 0x21 (41_ocb_core.md R94). -/
  | ocbDecrypt (payload : List Byte)
  /-- OPC 0x30 (44_cryptstate.md R118). -/
  | setKey (payload : List Byte)
  /-- OPC 0x31 (44_cryptstate.md R121). -/
  | new (payload : List Byte)
  /-- OPC 0x40 (44_cryptstate.md R123). -/
  | encrypt (payload : List Byte)
  /-- OPC 0x41 (44_cryptstate.md R126). -/
  | decrypt (payload : List Byte)
  /-- OPC 0x42 (44_cryptstate.md R131). -/
  | rwProbe (payload : List Byte)
  /-- OPC 0x50 (44_cryptstate.md R133). -/
  | readReg (payload : List Byte)
  deriving DecidableEq, Repr

end Sys2Proof
end

