-- ==== Sys2Proof/WellFormed.lean ====
section
/-! DEFINITION. Which commands a frame can carry. -/

namespace Sys2Proof

/-- The payload of a command. -/
def Instr.payload : Instr → List Byte
  | .gfZero p => p
  | .gfXor p => p
  | .gfDouble p => p
  | .gfTriple p => p
  | .ocbEncrypt p => p
  | .ocbDecrypt p => p
  | .setKey p => p
  | .new p => p
  | .encrypt p => p
  | .decrypt p => p
  | .rwProbe p => p
  | .readReg p => p

/-- `|PAYLOAD| <= 65535`: the length fits the 16-bit PLEN (30_encoding.md R47). It is the only
condition a command has; a payload that breaks its opcode's layout is a command too, which raises
IllegalCommand (30_encoding.md R66). -/
abbrev Instr.WellFormed (i : Instr) : Prop := i.payload.length ≤ 65535

end Sys2Proof
end

