-- ==== Sys2Proof/Decode.lean ====
section
/-! DEFINITION. Frames: the decoder, total on any bytes, then the encoder, both from the frame of
30_encoding.md R47 and the opcode map of R50. -/

namespace Sys2Proof

/-- Why a byte string is no command. -/
inductive DecodeError where
  /-- Fewer bytes than the three of OPC and PLEN, or than PLEN asks for (30_encoding.md R48). -/
  | truncatedFrame
  /-- More bytes than `3 + P` (30_encoding.md R48). -/
  | runOnFrame
  /-- A whole frame whose OPC is not listed in the opcode map (30_encoding.md R66). -/
  | reservedOpcode (opc : Byte)
  deriving DecidableEq, Repr

/-- The 2-byte little-endian form of a length (30_encoding.md R69). -/
def le2 (n : Nat) : List Byte := [BitVec.ofNat 8 n, BitVec.ofNat 8 (n / 256)]

/-- `P = F[1] + 256·F[2]` (30_encoding.md R47). -/
def plen (lo hi : Byte) : Nat := lo.toNat + 256 * hi.toNat

/-- The opcode map (30_encoding.md R50, R66): every OPC value maps to a command or to none. -/
def commandOf (opc : Byte) (payload : List Byte) : Option Instr :=
  match opc.toNat with
  | 0x10 => some (.gfZero payload)
  | 0x11 => some (.gfXor payload)
  | 0x12 => some (.gfDouble payload)
  | 0x13 => some (.gfTriple payload)
  | 0x20 => some (.ocbEncrypt payload)
  | 0x21 => some (.ocbDecrypt payload)
  | 0x30 => some (.setKey payload)
  | 0x31 => some (.new payload)
  | 0x40 => some (.encrypt payload)
  | 0x41 => some (.decrypt payload)
  | 0x42 => some (.rwProbe payload)
  | 0x50 => some (.readReg payload)
  | _ => none

/-- Decode one frame (30_encoding.md R47, R67): OPC from byte 0, the length from bytes 1 and 2, and
the bytes delivered must be exactly `3 + P` (R48). -/
def decode : List Byte → Except DecodeError Instr
  | opc :: lo :: hi :: payload =>
    if payload.length < plen lo hi then .error .truncatedFrame
    else if plen lo hi < payload.length then .error .runOnFrame
    else
      match commandOf opc payload with
      | some i => .ok i
      | none => .error (.reservedOpcode opc)
  | _ => .error .truncatedFrame

/-- The OPC byte of a command (30_encoding.md R50). -/
def opcodeOf : Instr → Byte
  | .gfZero _ => 0x10
  | .gfXor _ => 0x11
  | .gfDouble _ => 0x12
  | .gfTriple _ => 0x13
  | .ocbEncrypt _ => 0x20
  | .ocbDecrypt _ => 0x21
  | .setKey _ => 0x30
  | .new _ => 0x31
  | .encrypt _ => 0x40
  | .decrypt _ => 0x41
  | .rwProbe _ => 0x42
  | .readReg _ => 0x50

/-- A raw frame `op ‖ le2(|x|) ‖ x` for any OPC, reserved ones too (30_encoding.md R47, R69). -/
def rawFrame (opc : Byte) (payload : List Byte) : List Byte := opc :: (le2 payload.length ++ payload)

/-- The frame of a command (30_encoding.md R47); for a well-formed one PLEN is its payload's length. -/
def encode (i : Instr) : List Byte := rawFrame (opcodeOf i) i.payload

/-- Byte `n` of the number `w`, byte 0 the least significant. -/
def byteOfNat (w n : Nat) : Byte := BitVec.ofNat 8 (w / 256 ^ n)

/-- The whole frame whose bits are the low `nbits` bits of `w`, bit 0 the least significant bit of
byte 0, and every bit above them 0. PLEN, read from bytes 1 and 2 of those bits, says how long the
frame is. -/
def frameOfWord (nbits w : Nat) : List Byte :=
  let v := w % 2 ^ nbits
  (List.range (3 + plen (byteOfNat v 1) (byteOfNat v 2))).map (byteOfNat v)

/-- The command that the decoder reads from a table row's bits. -/
def decodeTableWord (nbits w : Nat) : Option Instr :=
  match decode (frameOfWord nbits w) with
  | .ok i => some i
  | .error _ => none

end Sys2Proof
end

