-- ==== Sys2Proof/Machine/State.lean ====
section
/-! DEFINITION. The architectural state (10_state.md R17), the host's side of it, and reset (R31). -/

namespace Sys2Proof.Machine

/-- The STATUS byte of a response, by name (60_exceptions.md R141). -/
inductive Status where
  | ok
  /-- SET_KEY, a key that is not 16 bytes (60_exceptions.md R142). -/
  | invalidKeyLength
  /-- SET_KEY, an IV that is not 16 bytes (R143). -/
  | invalidIVLength
  /-- NEW, no 48-byte answer of the random source (R144). -/
  | randomnessUnavailable
  /-- DECRYPT, a packet too short or too long (R145). -/
  | malformedPacket
  /-- OCB_DECRYPT or DECRYPT, a tag mismatch (R146). -/
  | authenticationFailure
  /-- DECRYPT, a candidate already seen (R147). -/
  | replay
  /-- DECRYPT, a tag mismatch at a resync candidate (R148). -/
  | outOfWindow
  /-- A command that needs a key, with KEY_VALID = 0 (R149). -/
  | notKeyed
  /-- A reserved OPC or a payload that breaks its layout (R150). -/
  | illegalCommand
  deriving DecidableEq, Repr

/-- The class of an accepted or probed candidate (30_encoding.md R68, 43_replay_window.md R106). -/
inductive PacketClass where
  | good
  | late
  | lost
  | resync
  deriving DecidableEq, Repr

/-- The registers that READ_REG names (10_state.md R29). -/
inductive Reg where
  | key
  | eiv
  | div
  | good
  | late
  | lost
  | resync
  | status
  deriving DecidableEq, Repr

/-- A response: STATUS, INFO and the payload; RLEN is the payload's length (30_encoding.md R49). -/
structure Response where
  status : Status
  info : Byte
  payload : List Byte
  deriving DecidableEq, Repr

/-- What the host can do to the block: deliver a frame (30_encoding.md R48) or assert the reset input
(70_reset_and_hazards.md R161). -/
inductive HostInput where
  | frame (bytes : List Byte)
  | reset
  deriving DecidableEq, Repr

/-- One instance of the block. The first nine fields are the record of 10_state.md R17; the last four
are the model's own and hold what the host and the random source hand over, and what the host gets
back. -/
structure State where
  /-- KEY_VALID (10_state.md R19). -/
  keyValid : Bool
  /-- KEY (R18). -/
  key : Key
  /-- EIV, EncryptIV (R20). -/
  eiv : Counter
  /-- DIV, DecryptIV (R21). -/
  div : Counter
  /-- HIST: 256 slots, each Empty (`none`) or a counter (R22). -/
  hist : Vector (Option Counter) 256
  /-- GOOD (R23). -/
  good : EventCount
  /-- LATE (R24). -/
  late : EventCount
  /-- LOST (R25). -/
  lost : EventCount
  /-- RESYNC (R26). -/
  resync : EventCount
  /-- The host's inputs not yet accepted, oldest first (20_memory.md R43, log 2). -/
  inbox : List HostInput
  /-- The responses returned so far, oldest first (70_reset_and_hazards.md R169, R177, log 2). -/
  outbox : List Response
  /-- The random source's coming answers, oldest first (60_exceptions.md R156, log 3). -/
  rng : List (Option Draw)
  /-- How many answers the random source has given (log 3). -/
  rngCalls : Nat
  deriving DecidableEq, Repr

/-- The machine stops with no fault: no exception is fatal, and there is no stuck, halted or locked
state (60_exceptions.md R138). Taking an exception is a next state with one more response, so this
type has no constructor. -/
inductive Fault where
  deriving DecidableEq, Repr

/-- What the model refuses. -/
inductive Refusal where
  /-- An instruction without a meaning; raised by no arm of `exec`. Safe: the model stops. -/
  | notModelled (mnemonic : String)
  /-- A frame with fewer bytes than its PLEN asks for; raised by `step`. Safe: the transport never
  delivers one and the spec gives it no transition (30_encoding.md R48, log 7). -/
  | truncatedFrame
  /-- A frame with more bytes than `3 + P`; raised by `step`. Safe, for the same reason. -/
  | runOnFrame
  deriving DecidableEq, Repr

/-- HIST with every slot Empty (10_state.md R31). -/
def emptyHist : Vector (Option Counter) 256 := Vector.replicate 256 none

/-- The machine right after reset (10_state.md R31). KEY, EIV and DIV hold no value there, and no
command can observe them; the model holds zeros (log 1). Nothing has been delivered or returned. -/
def State.reset : State where
  keyValid := false
  key := Vector.replicate 16 0
  eiv := 0
  div := 0
  hist := emptyHist
  good := 0
  late := 0
  lost := 0
  resync := 0
  inbox := []
  outbox := []
  rng := []
  rngCalls := 0

end Sys2Proof.Machine
end

