-- ==== Sys2Proof/Machine/Flags.lean ====
section
/-! DEFINITION. The coded values of a response and of the STATUS register. The block has no
condition-code register (10_state.md R28): these are its only flags. -/

namespace Sys2Proof.Machine

/-- The STATUS byte of a status (60_exceptions.md R141). -/
def statusCode : Status → Byte
  | .ok => 0x00
  | .invalidKeyLength => 0x01
  | .invalidIVLength => 0x02
  | .randomnessUnavailable => 0x03
  | .malformedPacket => 0x04
  | .authenticationFailure => 0x05
  | .replay => 0x06
  | .outOfWindow => 0x07
  | .notKeyed => 0x08
  | .illegalCommand => 0x09

/-- The INFO byte of a class (30_encoding.md R68). -/
def classCode : PacketClass → Byte
  | .good => 0x00
  | .late => 0x01
  | .lost => 0x02
  | .resync => 0x03

/-- The INFO byte of every response but the successes of DECRYPT and RW_PROBE (30_encoding.md R49). -/
def noInfo : Byte := 0x00

/-- The STATUS register: bit 0 is KEY_VALID, bits 7..1 read 0 (10_state.md R29). -/
def statusRegister (keyValid : Bool) : Byte := if keyValid then 0x01 else 0x00

/-- The seen byte of an RW_PROBE response (44_cryptstate.md R131). -/
def seenByte (seen : Bool) : Byte := if seen then 0x01 else 0x00

/-- The bytes of a response, `STATUS ‖ INFO ‖ RLEN ‖ RPAYLOAD` (30_encoding.md R49). -/
def responseFrame (r : Response) : List Byte :=
  statusCode r.status :: r.info :: (le2 r.payload.length ++ r.payload)

end Sys2Proof.Machine
end

