-- ==== Sys2Proof/Machine/Operands.lean ====
section
/-! DEFINITION. Byte images of numbers and blocks, and the payload layout of every command
(30_encoding.md R51 to R63). A layout function answers `none` exactly where the payload breaks its
opcode's rule. -/

namespace Sys2Proof.Machine

/-- The 16-byte block of a byte list: its first 16 bytes, padded with zero bytes, `l ‖ 0^(16−|l|)`. -/
def blockOf (l : List Byte) : Block := Vector.ofFn fun i : Fin 16 => l.getD i.val 0

/-- `val_be(B) = Σ B[i]·256^(|B|−1−i)`: byte 0 is the most significant (00_scope.md R9). -/
def valBe (l : List Byte) : Nat := l.foldl (fun acc b => acc * 256 + b.toNat) 0

/-- `Σ B[i]·256^i`: byte 0 is the least significant (00_scope.md R10). -/
def valLeNat : List Byte → Nat
  | [] => 0
  | b :: bs => b.toNat + 256 * valLeNat bs

/-- `val_le(B)` of a 16-byte IV, as a counter (00_scope.md R10, 42_iv_state.md R97). -/
def valLe (l : List Byte) : Counter := BitVec.ofNat 128 (valLeNat l)

/-- `le16(v)`, the byte image of a counter (00_scope.md R10, 20_memory.md R35). -/
def le16 (v : Counter) : Block := Vector.ofFn fun i : Fin 16 => v.extractLsb' (8 * i.val) 8

/-- `le4(v)`, the byte image of an event counter (20_memory.md R37). -/
def le4 (v : EventCount) : List Byte :=
  [v.extractLsb' 0 8, v.extractLsb' 8 8, v.extractLsb' 16 8, v.extractLsb' 24 8]

/-- `low(v) = v mod 256`, the low-order byte of a counter (00_scope.md R10). -/
def low (v : Counter) : Byte := v.extractLsb' 0 8

/-- The two halves of a GF_XOR payload, when its length is even (30_encoding.md R52). -/
def xorOperands (p : List Byte) : Option (List Byte × List Byte) :=
  if p.length % 2 = 0 then some (p.take (p.length / 2), p.drop (p.length / 2)) else none

/-- The one block of a GF_DOUBLE or GF_TRIPLE payload (30_encoding.md R53, R54). -/
def blockOperand (p : List Byte) : Option Block :=
  if p.length = 16 then some (blockOf p) else none

/-- `K ‖ N ‖ Pt` (30_encoding.md R55). -/
def ocbEncryptOperands (maxPlain : Nat) (p : List Byte) : Option (Key × Block × List Byte) :=
  if 32 ≤ p.length ∧ p.length - 32 ≤ maxPlain then
    some (blockOf (p.take 16), blockOf ((p.drop 16).take 16), p.drop 32)
  else none

/-- The three bytes of a received tag. -/
def tagOf (l : List Byte) : Tag := Vector.ofFn fun i : Fin 3 => l.getD i.val 0

/-- `K ‖ N ‖ T ‖ Ct` (30_encoding.md R56). -/
def ocbDecryptOperands (maxPlain : Nat) (p : List Byte) :
    Option (Key × Block × Tag × List Byte) :=
  if 35 ≤ p.length ∧ p.length - 35 ≤ maxPlain then
    some (blockOf (p.take 16), blockOf ((p.drop 16).take 16), tagOf ((p.drop 32).take 3), p.drop 35)
  else none

/-- One length-prefixed field and the bytes after it (30_encoding.md R57). -/
def takeField : List Byte → Option (List Byte × List Byte)
  | [] => none
  | n :: rest => if n.toNat ≤ rest.length then some (rest.take n.toNat, rest.drop n.toNat) else none

/-- Exactly three length-prefixed fields: key, encrypt IV, decrypt IV (30_encoding.md R57). -/
def setKeyOperands (p : List Byte) : Option (List Byte × List Byte × List Byte) :=
  match takeField p with
  | none => none
  | some (k, p₁) =>
    match takeField p₁ with
    | none => none
    | some (e, p₂) =>
      match takeField p₂ with
      | none => none
      | some (d, p₃) => if p₃ = [] then some (k, e, d) else none

/-- The one byte of an RW_PROBE or READ_REG payload (30_encoding.md R61, R63). -/
def byteOperand : List Byte → Option Byte
  | [b] => some b
  | _ => none

/-- A wire packet: header byte, truncated tag, ciphertext (30_encoding.md R62). -/
structure WirePacket where
  header : Byte
  tag : Tag
  ciphertext : List Byte
  deriving DecidableEq, Repr

/-- The wire packet of a DECRYPT payload, when its length `M` has `4 <= M` and `M − 4 <= MAX_PLAIN`
(30_encoding.md R60, R62; 60_exceptions.md R145). -/
def wireOperand (maxPlain : Nat) (w : List Byte) : Option WirePacket :=
  match w with
  | h :: t₀ :: t₁ :: t₂ :: ct =>
    if ct.length ≤ maxPlain then some ⟨h, tagOf [t₀, t₁, t₂], ct⟩ else none
  | _ => none

/-- The register of an index; indices 0x08 to 0xff are reserved (10_state.md R29). -/
def regOfIndex (i : Byte) : Option Reg :=
  match i.toNat with
  | 0x00 => some .key
  | 0x01 => some .eiv
  | 0x02 => some .div
  | 0x03 => some .good
  | 0x04 => some .late
  | 0x05 => some .lost
  | 0x06 => some .resync
  | 0x07 => some .status
  | _ => none

end Sys2Proof.Machine
end

