-- ==== Sys2Proof/Machine/Ops.lean ====
section
/-! DEFINITION. The named operations on the state that the commands share: returning a response,
raising a status, installing a key, drawing random bytes, HIST, reset, and accepting an input. -/

namespace Sys2Proof.Machine

/-- Return one response to the host, after all earlier ones (70_reset_and_hazards.md R169). -/
def respond (r : Response) (s : State) : State := { s with outbox := s.outbox ++ [r] }

/-- `return (info, payload)`: end the command with status OK (00_scope.md R12). -/
def complete (info : Byte) (payload : List Byte) (s : State) : State :=
  respond ⟨.ok, info, payload⟩ s

/-- `raise S`, the block's only exception: the response `STATUS = S, INFO = 0x00, RLEN = 0`
(60_exceptions.md R135). It saves nothing and changes no state element (R136, R151); there is no
return from it, because the next command is simply executed (R154). -/
def raise (e : Status) (s : State) : State := respond ⟨e, noInfo, []⟩ s

/-- The effects of an installation, shared by SET_KEY and NEW: a new epoch, with HIST emptied and the
four event counters left as they are (44_cryptstate.md R119). -/
def install (k : Key) (e d : Counter) (s : State) : State :=
  { s with key := k, eiv := e, div := d, hist := emptyHist, keyValid := true }

/-- The random source's answer to one `rng_fill(48)` (60_exceptions.md R156): the next answer of the
run's input, and past its end a free one (log 3). -/
def rngFill (s : State) : Option Draw :=
  match s.rng with
  | a :: _ => a
  | [] => Config.rngAnswer s.rngCalls

/-- The state after that answer has been given: no architectural element changes (log 9). -/
def rngTaken (s : State) : State := { s with rng := s.rng.tail, rngCalls := s.rngCalls + 1 }

/-- The HIST slot of a counter: its low byte (10_state.md R22). -/
def slotOf (c : Counter) : Fin 256 := (low c).toFin

/-- What the HIST slot of a counter's low byte holds. -/
def histAt (s : State) (c : Counter) : Option Counter := s.hist[slotOf c]

/-- `HIST[low(c)] <- c` (43_replay_window.md R111). -/
def histMark (c : Counter) (s : State) : State :=
  { s with hist := s.hist.set (slotOf c) (some c) }

/-- `seen(c) := (HIST[low(c)] = c)`; an Empty slot equals no counter (43_replay_window.md R107). -/
def seen (s : State) (c : Counter) : Bool := histAt s c == some c

/-- The reset event: every state element takes its reset value and no response is given
(70_reset_and_hazards.md R161, 10_state.md R31). What the host has delivered and received and what
the random source will answer are no state elements of the block (log 14). -/
def resetBlock (s : State) : State :=
  { State.reset with inbox := s.inbox, outbox := s.outbox, rng := s.rng, rngCalls := s.rngCalls }

/-- The state once the oldest input has been accepted. -/
def accepted (s : State) : State := { s with inbox := s.inbox.tail }

/-- Deliver an input so that it is the next one accepted. -/
def deliverNext (x : HostInput) (s : State) : State := { s with inbox := x :: s.inbox }

/-- What the block does about a frame that decodes to no command. A reserved OPC raises
IllegalCommand (30_encoding.md R66); a truncated or run-on frame has no transition (R48, log 7). -/
def undecoded (e : DecodeError) (s : State) : Host.Outcome State Fault Refusal :=
  match e with
  | .reservedOpcode _ => .next (raise .illegalCommand s)
  | .truncatedFrame => .refused .truncatedFrame
  | .runOnFrame => .refused .runOnFrame

end Sys2Proof.Machine
end

