-- ==== Sys2Proof/Machine/IvState.lean ====
section
/-! DEFINITION. IVState: the two packet counters (42_iv_state.md). It has no command of its own. -/

namespace Sys2Proof.Machine

/-- `iv_increment(v) = (v + 1) mod 2^128` (42_iv_state.md R98, R101). -/
def ivIncrement (v : Counter) : Counter := v + 1

/-- The byte form of `iv_increment`: add 1 with carry in ascending index order (42_iv_state.md R98). -/
def ivIncrementBytes : List Byte → List Byte
  | [] => []
  | b :: bs => if b + 1 = 0 then 0 :: ivIncrementBytes bs else (b + 1) :: bs

/-- `iv_commit(c, k)`: a late candidate leaves DIV as it is, every other one moves it
(42_iv_state.md R100). -/
def ivCommit (c : Counter) (k : PacketClass) (s : State) : State :=
  match k with
  | .good => { s with div := c }
  | .lost => { s with div := c }
  | .resync => { s with div := c }
  | .late => s

end Sys2Proof.Machine
end

