-- ==== Sys2Proof/Machine/GaloisField.lean ====
section
/-! DEFINITION. GaloisFieldDoubler: GF_ZERO, GF_XOR, GF_DOUBLE, GF_TRIPLE (40_galois_field.md). -/

namespace Sys2Proof.Machine

/-- `zero(X) = 0^|X|` (40_galois_field.md R71). -/
def zeroBytes (x : List Byte) : List Byte := List.replicate x.length 0

/-- `xorb(A, B)[i] = A[i] ⊕ B[i]` on buffers (40_galois_field.md R72). -/
def xorb (a b : List Byte) : List Byte := List.zipWith (· ^^^ ·) a b

/-- `xorb` on 16-byte blocks, which is also the field's addition (40_galois_field.md R73). -/
def xorBlock (a b : Block) : Block := Vector.ofFn fun i : Fin 16 => a[i] ^^^ b[i]

/-- `dbl(X)`: shift the 16 bytes left by one bit, byte 0 the most significant, and fold the carry out
of bit 127 back as 0x87 (40_galois_field.md R74, 20_memory.md R34). -/
def dbl (X : Block) : Block :=
  Vector.ofFn fun i : Fin 16 =>
    if _h : i.val < 15 then (X[i.val] <<< 1) ||| (X[i.val + 1] >>> 7)
    else (X[15] <<< 1) ^^^ ((X[0] >>> 7) * 0x87#8)

/-- `tri(X) = xorb(dbl(X), X)` (40_galois_field.md R76). -/
def tri (X : Block) : Block := xorBlock (dbl X) X

/-- GF_ZERO: every length is legal and the bytes are ignored (40_galois_field.md R71). -/
def gfZeroCommand (payload : List Byte) (s : State) : State :=
  complete noInfo (zeroBytes payload) s

/-- GF_XOR: an odd payload raises IllegalCommand (40_galois_field.md R72). -/
def gfXorCommand (payload : List Byte) (s : State) : State :=
  match xorOperands payload with
  | some (a, b) => complete noInfo (xorb a b) s
  | none => raise .illegalCommand s

/-- GF_DOUBLE: a payload that is not one block raises IllegalCommand (40_galois_field.md R75). -/
def gfDoubleCommand (payload : List Byte) (s : State) : State :=
  match blockOperand payload with
  | some X => complete noInfo (dbl X).toList s
  | none => raise .illegalCommand s

/-- GF_TRIPLE: a payload that is not one block raises IllegalCommand (40_galois_field.md R77). -/
def gfTripleCommand (payload : List Byte) (s : State) : State :=
  match blockOperand payload with
  | some X => complete noInfo (tri X).toList s
  | none => raise .illegalCommand s

/-- The meaning of GF_ZERO. -/
def execGfZero (payload : List Byte) (s : State) : Host.Outcome State Fault Refusal :=
  .next (gfZeroCommand payload s)

/-- The meaning of GF_XOR. -/
def execGfXor (payload : List Byte) (s : State) : Host.Outcome State Fault Refusal :=
  .next (gfXorCommand payload s)

/-- The meaning of GF_DOUBLE. -/
def execGfDouble (payload : List Byte) (s : State) : Host.Outcome State Fault Refusal :=
  .next (gfDoubleCommand payload s)

/-- The meaning of GF_TRIPLE. -/
def execGfTriple (payload : List Byte) (s : State) : Host.Outcome State Fault Refusal :=
  .next (gfTripleCommand payload s)

end Sys2Proof.Machine
end

