-- ==== Sys2Proof/Machine/OcbCore.lean ====
section
/-! DEFINITION. OCBCore: the OCB2-style construction, OCB_ENCRYPT and OCB_DECRYPT (41_ocb_core.md). -/

namespace Sys2Proof.Machine

/-- `0^16`. -/
def zeroBlock : Block := Vector.replicate 16 0

/-- `m`, how many blocks the main loop takes: 0 if `L = 0`, else `(L − 1) div 16` (41_ocb_core.md R83). -/
def loopBlocks (L : Nat) : Nat := if L = 0 then 0 else (L - 1) / 16

/-- `r = L − 16·m`, the length of the final block (41_ocb_core.md R83). -/
def tailLength (L : Nat) : Nat := L - 16 * loopBlocks L

/-- `Λ = 0^15 ‖ (8·r)`, the length block (41_ocb_core.md R85). -/
def lengthBlock (r : Nat) : Block := blockOf (List.replicate 15 0 ++ [BitVec.ofNat 8 (8 * r)])

/-- What the main loop hands on: the blocks it put out, the running offset and the running checksum
(41_ocb_core.md R81). -/
structure LoopResult where
  out : List Byte
  offset : Block
  checksum : Block
  deriving DecidableEq, Repr

/-- The main loop of encryption over `m` blocks of `msg`, with `E` at the operation's key
(41_ocb_core.md R84). -/
def encLoop (E : Block → Block) : Nat → Block → Block → List Byte → LoopResult
  | 0, offset, checksum, _ => ⟨[], offset, checksum⟩
  | m + 1, offset, checksum, msg =>
    let offset' := dbl offset
    let P := blockOf (msg.take 16)
    let C := xorBlock (E (xorBlock P offset')) offset'
    let rest := encLoop E m offset' (xorBlock checksum P) (msg.drop 16)
    { rest with out := C.toList ++ rest.out }

/-- The main loop of decryption, with `Einv` at the operation's key (41_ocb_core.md R88). -/
def decLoop (Einv : Block → Block) : Nat → Block → Block → List Byte → LoopResult
  | 0, offset, checksum, _ => ⟨[], offset, checksum⟩
  | m + 1, offset, checksum, msg =>
    let offset' := dbl offset
    let P := xorBlock (Einv (xorBlock (blockOf (msg.take 16)) offset')) offset'
    let rest := decLoop Einv m offset' (xorBlock checksum P) (msg.drop 16)
    { rest with out := P.toList ++ rest.out }

/-- `Pad = E(K, Λ ⊕ Δ_f)` (41_ocb_core.md R85, R89). -/
def padBlock (E : Block → Block) (r : Nat) (finalOffset : Block) : Block :=
  E (xorBlock (lengthBlock r) finalOffset)

/-- `tag_full = E(K, tri(Δ_f) ⊕ Σ)` (41_ocb_core.md R86). -/
def tagBlock (E : Block → Block) (finalOffset checksum : Block) : Block :=
  E (xorBlock (tri finalOffset) checksum)

/-- `ocb_enc(K, N, Pt)`: the ciphertext and the full tag (41_ocb_core.md R87). -/
def ocbEnc (π : PermPort) (K : Key) (N : Block) (Pt : List Byte) : List Byte × Block :=
  let E := π.E K
  let m := loopBlocks Pt.length
  let r := tailLength Pt.length
  let loop := encLoop E m (E N) zeroBlock Pt
  let finalOffset := dbl loop.offset
  let Pad := padBlock E r finalOffset
  let Pr := Pt.drop (16 * m)
  let Tf := blockOf (Pr ++ Pad.toList.drop r)
  (loop.out ++ xorb Pr (Pad.toList.take r), tagBlock E finalOffset (xorBlock loop.checksum Tf))

/-- `ocb_dec(K, N, Ct)`: a candidate plaintext and the recomputed full tag (41_ocb_core.md R90). -/
def ocbDec (π : PermPort) (K : Key) (N : Block) (Ct : List Byte) : List Byte × Block :=
  let E := π.E K
  let m := loopBlocks Ct.length
  let r := tailLength Ct.length
  let loop := decLoop (π.Einv K) m (E N) zeroBlock Ct
  let finalOffset := dbl loop.offset
  let Pad := padBlock E r finalOffset
  let Tf := xorBlock (blockOf (Ct.drop (16 * m))) Pad
  (loop.out ++ Tf.toList.take r, tagBlock E finalOffset (xorBlock loop.checksum Tf))

/-- The wire tag, `tag_full[0 .. 2]` (41_ocb_core.md R91). -/
def truncateTag (tagFull : Block) : Tag := Vector.ofFn fun i : Fin 3 => tagFull[i.val]

/-- `diff`: zero exactly when the three bytes agree (41_ocb_core.md R92). -/
def tagDiff (a b : Tag) : Byte := (a[0] ^^^ b[0]) ||| (a[1] ^^^ b[1]) ||| (a[2] ^^^ b[2])

/-- `ocb_verify(K, N, T, Ct)`: the plaintext only when the recomputed tag matches
(41_ocb_core.md R92). -/
def ocbVerify (π : PermPort) (K : Key) (N : Block) (T : Tag) (Ct : List Byte) :
    Option (List Byte) :=
  let (Pt, tagFull) := ocbDec π K N Ct
  if tagDiff (truncateTag tagFull) T = 0 then some Pt else none

/-- OCB_ENCRYPT under given parameters (41_ocb_core.md R93). -/
def ocbEncryptCommand (P : Params) (payload : List Byte) (s : State) : State :=
  match ocbEncryptOperands P.maxPlain payload with
  | some (K, N, Pt) =>
    let (Ct, tagFull) := ocbEnc P.port K N Pt
    complete noInfo (Ct ++ tagFull.toList) s
  | none => raise .illegalCommand s

/-- OCB_DECRYPT under given parameters (41_ocb_core.md R94). -/
def ocbDecryptCommand (P : Params) (payload : List Byte) (s : State) : State :=
  match ocbDecryptOperands P.maxPlain payload with
  | some (K, N, T, Ct) =>
    match ocbVerify P.port K N T Ct with
    | some Pt => complete noInfo Pt s
    | none => raise .authenticationFailure s
  | none => raise .illegalCommand s

/-- The meaning of OCB_ENCRYPT. -/
def execOcbEncrypt (payload : List Byte) (s : State) : Host.Outcome State Fault Refusal :=
  .next (ocbEncryptCommand Config.params payload s)

/-- The meaning of OCB_DECRYPT. -/
def execOcbDecrypt (payload : List Byte) (s : State) : Host.Outcome State Fault Refusal :=
  .next (ocbDecryptCommand Config.params payload s)

end Sys2Proof.Machine
end

