-- ==== Sys2Proof/Machine/ReplayWindow.lean ====
section
/-! DEFINITION. ReplayWindow: candidates, classes, the replay check and the effects of an acceptance
(43_replay_window.md), with RW_PROBE. -/

namespace Sys2Proof.Machine

/-- `u = (h − low(d)) mod 256`, the forward distance in byte space (43_replay_window.md R105). -/
def forwardDistance (d : Counter) (h : Byte) : Nat := (h - low d).toNat

/-- `s`, the candidate's signed distance from DIV (43_replay_window.md R105). -/
def candidateDistance (W : Window) (d : Counter) (h : Byte) : Int :=
  let u := forwardDistance d h
  if 256 - W.lateMax ≤ u then (u : Int) - 256 else u

/-- `c = (d + s) mod 2^128`, the candidate counter of a header byte (43_replay_window.md R105). -/
def candidate (W : Window) (d : Counter) (h : Byte) : Counter :=
  d + BitVec.ofInt 128 (candidateDistance W d h)

/-- The class of a distance (43_replay_window.md R106). -/
def classOf (W : Window) (dist : Int) : PacketClass :=
  if dist = 1 then .good
  else if dist ≤ 0 then .late
  else if dist ≤ W.aheadMax then .lost
  else .resync

/-- What ReplayWindow decides about one packet (43_replay_window.md R113). -/
inductive Decision where
  | reject (why : Status)
  | accept (c : Counter) (dist : Int) (k : PacketClass) (pt : List Byte)
  deriving DecidableEq, Repr

/-- `rw_decide(state, W)` (43_replay_window.md R113): a seen candidate is a replay before any call to
the permutation port (R108), an unseen one is tried once (R109), and a failed attempt is OutOfWindow
for a resync candidate, AuthenticationFailure for any other (R110).

DESIGN CHOICE (log 15), where the spec's rules clash and 90_conflicts.md names no winner: a packet of a
counter out of reach (more than LATE_MAX behind DIV, or more than 255 − LATE_MAX ahead of it) or of an
older epoch, whose header byte's candidate is another counter that is itself seen. R108, R113, R129 and
R132 give Replay; R116, R130, R172 and R173 say that such a packet fails with another status. The model
answers Replay.

DESIGN CHOICE (log 17), another such clash: a header byte equal to `low(DIV)` when every acceptance since
the installation was of a counter behind DIV. R107, R111, R128 and R129 leave DIV itself unseen and try
it; R130 says that after any acceptance DIV is seen and this is Replay. The model tries it. -/
def rwDecide (P : Params) (s : State) (w : WirePacket) : Decision :=
  let c := candidate P.window s.div w.header
  let dist := candidateDistance P.window s.div w.header
  let k := classOf P.window dist
  if seen s c then .reject .replay
  else
    match ocbVerify P.port s.key (le16 c) w.tag w.ciphertext with
    | some pt => .accept c dist k pt
    | none => .reject (if k = .resync then .outOfWindow else .authenticationFailure)

/-- `LOST − 1`, floored at 0 (43_replay_window.md R112). -/
def lostCorrected (lost : EventCount) : EventCount := if lost = 0 then 0 else lost - 1

/-- The event counters after an acceptance; all sums are modulo 2^32 (43_replay_window.md R112). -/
def countAccepted (dist : Int) (k : PacketClass) (s : State) : State :=
  match k with
  | .good => { s with good := s.good + 1 }
  | .lost => { s with good := s.good + 1, lost := s.lost + BitVec.ofInt 32 (dist - 1) }
  | .resync =>
    { s with good := s.good + 1, lost := s.lost + BitVec.ofInt 32 (dist - 1),
             resync := s.resync + 1 }
  | .late => { s with good := s.good + 1, late := s.late + 1, lost := lostCorrected s.lost }

/-- The effects of an acceptance: history, counters, DIV (43_replay_window.md R111, R112;
42_iv_state.md R100; 44_cryptstate.md R128). -/
def applyAccept (c : Counter) (dist : Int) (k : PacketClass) (s : State) : State :=
  ivCommit c k (countAccepted dist k (histMark c s))

/-- RW_PROBE under given parameters (44_cryptstate.md R131). -/
def rwProbeCommand (P : Params) (payload : List Byte) (s : State) : State :=
  match byteOperand payload with
  | none => raise .illegalCommand s
  | some h =>
    if s.keyValid then
      let c := candidate P.window s.div h
      let k := classOf P.window (candidateDistance P.window s.div h)
      complete (classCode k) ((le16 c).toList ++ [seenByte (seen s c)]) s
    else raise .notKeyed s

/-- The meaning of RW_PROBE. -/
def execRwProbe (payload : List Byte) (s : State) : Host.Outcome State Fault Refusal :=
  .next (rwProbeCommand Config.params payload s)

end Sys2Proof.Machine
end

