-- ==== Sys2Proof/Machine/CryptState.lean ====
section
/-! DEFINITION. CryptState: SET_KEY, NEW, ENCRYPT, DECRYPT, READ_REG (44_cryptstate.md). -/

namespace Sys2Proof.Machine

/-- SET_KEY (44_cryptstate.md R118 to R120): the layout first, then the key's length, then the IVs'. -/
def setKeyCommand (payload : List Byte) (s : State) : State :=
  match setKeyOperands payload with
  | none => raise .illegalCommand s
  | some (K, Eb, Db) =>
    if K.length ≠ 16 then raise .invalidKeyLength s
    else if Eb.length ≠ 16 ∨ Db.length ≠ 16 then raise .invalidIVLength s
    else complete noInfo [] (install (blockOf K) (valLe Eb) (valLe Db) s)

/-- The meaning of SET_KEY. -/
def execSetKey (payload : List Byte) (s : State) : Host.Outcome State Fault Refusal :=
  .next (setKeyCommand payload s)

/-- Install a random draw, or raise RandomnessUnavailable with nothing installed: key, encrypt IV and
decrypt IV are its bytes 0..15, 16..31 and 32..47 (44_cryptstate.md R121, R122). -/
def newWithAnswer (answer : Option Draw) (s : State) : State :=
  match answer with
  | none => raise .randomnessUnavailable s
  | some R =>
    complete noInfo []
      (install (blockOf (R.toList.take 16)) (valLe ((R.toList.drop 16).take 16))
        (valLe (R.toList.drop 32)) s)

/-- NEW (44_cryptstate.md R121, R122): one call of the random source, and only after the layout check
(60_exceptions.md R156). -/
def newCommand (payload : List Byte) (s : State) : State :=
  match payload with
  | [] => newWithAnswer (rngFill s) (rngTaken s)
  | _ :: _ => raise .illegalCommand s

/-- The meaning of NEW. -/
def execNew (payload : List Byte) (s : State) : Host.Outcome State Fault Refusal :=
  .next (newCommand payload s)

/-- `wire(h, tf, Ct) = h ‖ tf[0] ‖ tf[1] ‖ tf[2] ‖ Ct` (44_cryptstate.md R124). -/
def wire (h : Byte) (tagFull : Block) (Ct : List Byte) : List Byte :=
  h :: ((truncateTag tagFull).toList ++ Ct)

/-- The wire packet that seals `Pt` under the counter `c` (44_cryptstate.md R123). -/
def sealPacket (π : PermPort) (K : Key) (c : Counter) (Pt : List Byte) : List Byte :=
  let (Ct, tagFull) := ocbEnc π K (le16 c) Pt
  wire (low c) tagFull Ct

/-- ENCRYPT under given parameters (44_cryptstate.md R123, 42_iv_state.md R99). -/
def encryptCommand (P : Params) (payload : List Byte) (s : State) : State :=
  if payload.length ≤ P.maxPlain then
    if s.keyValid then
      let c := ivIncrement s.eiv
      complete noInfo (sealPacket P.port s.key c payload) { s with eiv := c }
    else raise .notKeyed s
  else raise .illegalCommand s

/-- The meaning of ENCRYPT. -/
def execEncrypt (payload : List Byte) (s : State) : Host.Outcome State Fault Refusal :=
  .next (encryptCommand Config.params payload s)

/-- DECRYPT under given parameters (44_cryptstate.md R126 to R129): the key check first, then the
packet's length, then ReplayWindow's decision.

DESIGN CHOICE (log 16), where the spec's texts clash and 90_conflicts.md names no winner: an unkeyed
DECRYPT of a packet with `M − 4 > MAX_PLAIN`. R117, R126, R129 and 60_exceptions.md R145 and R152 put
the key check first and give NotKeyed; 92_eei_decisions.md D32, which 30_encoding.md R60 cites, has this
length checked before any state is read, which gives MalformedPacket. The model answers NotKeyed. -/
def decryptCommand (P : Params) (payload : List Byte) (s : State) : State :=
  if s.keyValid then
    match wireOperand P.maxPlain payload with
    | none => raise .malformedPacket s
    | some w =>
      match rwDecide P s w with
      | .reject why => raise why s
      | .accept c dist k pt => complete (classCode k) pt (applyAccept c dist k s)
  else raise .notKeyed s

/-- The meaning of DECRYPT. -/
def execDecrypt (payload : List Byte) (s : State) : Host.Outcome State Fault Refusal :=
  .next (decryptCommand Config.params payload s)

/-- Read one register (10_state.md R29, 44_cryptstate.md R133): KEY is write-only, EIV and DIV need
KEY_VALID, and the rest are readable in every state. -/
def readRegister (r : Reg) (s : State) : State :=
  match r with
  | .key => raise .illegalCommand s
  | .eiv => if s.keyValid then complete noInfo (le16 s.eiv).toList s else raise .notKeyed s
  | .div => if s.keyValid then complete noInfo (le16 s.div).toList s else raise .notKeyed s
  | .good => complete noInfo (le4 s.good) s
  | .late => complete noInfo (le4 s.late) s
  | .lost => complete noInfo (le4 s.lost) s
  | .resync => complete noInfo (le4 s.resync) s
  | .status => complete noInfo [statusRegister s.keyValid] s

/-- READ_REG (44_cryptstate.md R133): a reserved index raises IllegalCommand. -/
def readRegCommand (payload : List Byte) (s : State) : State :=
  match byteOperand payload with
  | none => raise .illegalCommand s
  | some i =>
    match regOfIndex i with
    | none => raise .illegalCommand s
    | some r => readRegister r s

/-- The meaning of READ_REG. -/
def execReadReg (payload : List Byte) (s : State) : Host.Outcome State Fault Refusal :=
  .next (readRegCommand payload s)

end Sys2Proof.Machine
end

