-- ==== Sys2Proof/Machine/Dispatch.lean ====
section
/-! DEFINITION. The meaning of every command, one arm each. -/

namespace Sys2Proof.Machine

def exec (i : Instr) (s : State) : Host.Outcome State Fault Refusal :=
  match i with
  | .gfZero payload => Sys2Proof.Machine.execGfZero payload s
  | .gfXor payload => Sys2Proof.Machine.execGfXor payload s
  | .gfDouble payload => Sys2Proof.Machine.execGfDouble payload s
  | .gfTriple payload => Sys2Proof.Machine.execGfTriple payload s
  | .ocbEncrypt payload => Sys2Proof.Machine.execOcbEncrypt payload s
  | .ocbDecrypt payload => Sys2Proof.Machine.execOcbDecrypt payload s
  | .setKey payload => Sys2Proof.Machine.execSetKey payload s
  | .new payload => Sys2Proof.Machine.execNew payload s
  | .encrypt payload => Sys2Proof.Machine.execEncrypt payload s
  | .decrypt payload => Sys2Proof.Machine.execDecrypt payload s
  | .rwProbe payload => Sys2Proof.Machine.execRwProbe payload s
  | .readReg payload => Sys2Proof.Machine.execReadReg payload s

end Sys2Proof.Machine
end

