-- ==== Sys2Proof/Machine/Step.lean ====
section
/-! DEFINITION. One step: accept the oldest input of the host and act on it. -/

namespace Sys2Proof.Machine

/-- One step of the block. With no input it waits for one (70_reset_and_hazards.md R162). A reset
takes effect between commands (R161). A frame is decoded and its command runs to completion before
the next input is accepted (00_scope.md R13, 20_memory.md R43). -/
def step (s : State) : Host.Outcome State Fault Refusal :=
  match s.inbox with
  | [] => .next s
  | .reset :: _ => .next (resetBlock (accepted s))
  | .frame bytes :: _ =>
    match decode bytes with
    | .ok i => exec i (accepted s)
    | .error e => undecoded e (accepted s)

/-- `s` with the table row's frame delivered as the next input (log 2). -/
def State.withFetchWord (s : State) (nbits w : Nat) : State :=
  deliverNext (.frame (frameOfWord nbits w)) s

end Sys2Proof.Machine
end

