-- ==== Sys2Proof/Machine/Assembler.lean ====
section
/-! DEFINITION. The assembler's forms and their frames (30_encoding.md R69, R70). -/

namespace Sys2Proof.Machine

/-- A READ_REG operand: a register's name or a number (30_encoding.md R69). -/
inductive RegOperand where
  | named (r : Reg)
  | number (n : Byte)
  deriving DecidableEq, Repr

/-- One line of assembler (30_encoding.md R69). -/
inductive Asm where
  | gfZero (x : List Byte)
  | gfXor (a b : List Byte)
  | gfDouble (x : Block)
  | gfTriple (x : Block)
  | ocbEncrypt (k : Key) (n : Block) (p : List Byte)
  | ocbDecrypt (k : Key) (n : Block) (t : Tag) (c : List Byte)
  | setKey (k e d : List Byte)
  | new
  | encrypt (p : List Byte)
  | decrypt (w : List Byte)
  | rwProbe (h : Byte)
  | readReg (r : RegOperand)
  /-- The `.frame` directive, the raw form for any OPC. -/
  | frame (opc : Byte) (x : List Byte)
  deriving DecidableEq, Repr

/-- The index of a register (10_state.md R29). -/
def regIndex : Reg → Byte
  | .key => 0x00
  | .eiv => 0x01
  | .div => 0x02
  | .good => 0x03
  | .late => 0x04
  | .lost => 0x05
  | .resync => 0x06
  | .status => 0x07

/-- The index byte of a READ_REG operand. -/
def regOperandByte : RegOperand → Byte
  | .named r => regIndex r
  | .number n => n

/-- A field with its length byte before it; the assembler computes the byte (30_encoding.md R70). -/
def lengthPrefixed (x : List Byte) : List Byte := BitVec.ofNat 8 x.length :: x

/-- The operand lengths that a form asks for (30_encoding.md R69): GF_XOR's two operands are equally
long, SET_KEY's fields fit their length bytes, and every payload fits PLEN. -/
def Asm.WellFormed : Asm → Bool
  | .gfZero x => x.length ≤ 65535
  | .gfXor a b => a.length = b.length && 2 * a.length ≤ 65535
  | .gfDouble _ => true
  | .gfTriple _ => true
  | .ocbEncrypt _ _ p => 32 + p.length ≤ 65535
  | .ocbDecrypt _ _ _ c => 35 + c.length ≤ 65535
  | .setKey k e d => k.length ≤ 255 && e.length ≤ 255 && d.length ≤ 255
  | .new => true
  | .encrypt p => p.length ≤ 65535
  | .decrypt w => w.length ≤ 65535
  | .rwProbe _ => true
  | .readReg _ => true
  | .frame _ x => x.length ≤ 65535

/-- The frame that a form stands for (30_encoding.md R69). -/
def assemble : Asm → List Byte
  | .gfZero x => 0x10 :: (le2 x.length ++ x)
  | .gfXor a b => 0x11 :: (le2 (2 * a.length) ++ (a ++ b))
  | .gfDouble x => 0x12 :: 0x10 :: 0x00 :: x.toList
  | .gfTriple x => 0x13 :: 0x10 :: 0x00 :: x.toList
  | .ocbEncrypt k n p => 0x20 :: (le2 (32 + p.length) ++ (k.toList ++ n.toList ++ p))
  | .ocbDecrypt k n t c =>
    0x21 :: (le2 (35 + c.length) ++ (k.toList ++ n.toList ++ t.toList ++ c))
  | .setKey k e d =>
    0x30 :: (le2 (3 + k.length + e.length + d.length) ++
      (lengthPrefixed k ++ lengthPrefixed e ++ lengthPrefixed d))
  | .new => [0x31, 0x00, 0x00]
  | .encrypt p => 0x40 :: (le2 p.length ++ p)
  | .decrypt w => 0x41 :: (le2 w.length ++ w)
  | .rwProbe h => [0x42, 0x01, 0x00, h]
  | .readReg r => [0x50, 0x01, 0x00, regOperandByte r]
  | .frame opc x => rawFrame opc x

end Sys2Proof.Machine
end

