-- ==== Sys2Proof/Machine/PortCalls.lean ====
section
/-! DEFINITION. The calls that a command makes to the permutation port, in order
(60_exceptions.md R157), and a command's effect under given parameters. The calls are no part of a
command's result: they say what an implementation that shares one permutation engine must serve. -/

namespace Sys2Proof.Machine

/-- One call of the permutation port. -/
inductive PortCall where
  | fwd (K : Key) (B : Block)
  | inv (K : Key) (B : Block)
  deriving DecidableEq, Repr

/-- The calls of encryption's main loop (41_ocb_core.md R84). -/
def encLoopCalls (K : Key) : Nat → Block → List Byte → List PortCall
  | 0, _, _ => []
  | m + 1, offset, msg =>
    .fwd K (xorBlock (blockOf (msg.take 16)) (dbl offset)) ::
      encLoopCalls K m (dbl offset) (msg.drop 16)

/-- The calls of decryption's main loop (41_ocb_core.md R88). -/
def decLoopCalls (K : Key) : Nat → Block → List Byte → List PortCall
  | 0, _, _ => []
  | m + 1, offset, msg =>
    .inv K (xorBlock (blockOf (msg.take 16)) (dbl offset)) ::
      decLoopCalls K m (dbl offset) (msg.drop 16)

/-- The calls of `ocb_enc`: the initial offset, the loop, the pad, the tag (41_ocb_core.md R87). -/
def ocbEncCalls (π : PermPort) (K : Key) (N : Block) (Pt : List Byte) : List PortCall :=
  let m := loopBlocks Pt.length
  let r := tailLength Pt.length
  let loop := encLoop (π.E K) m (π.E K N) zeroBlock Pt
  let finalOffset := dbl loop.offset
  let Pad := padBlock (π.E K) r finalOffset
  let Tf := blockOf (Pt.drop (16 * m) ++ Pad.toList.drop r)
  .fwd K N :: (encLoopCalls K m (π.E K N) Pt ++
    [.fwd K (xorBlock (lengthBlock r) finalOffset),
     .fwd K (xorBlock (tri finalOffset) (xorBlock loop.checksum Tf))])

/-- The calls of `ocb_dec` (41_ocb_core.md R90). -/
def ocbDecCalls (π : PermPort) (K : Key) (N : Block) (Ct : List Byte) : List PortCall :=
  let m := loopBlocks Ct.length
  let r := tailLength Ct.length
  let loop := decLoop (π.Einv K) m (π.E K N) zeroBlock Ct
  let finalOffset := dbl loop.offset
  let Tf := xorBlock (blockOf (Ct.drop (16 * m))) (padBlock (π.E K) r finalOffset)
  .fwd K N :: (decLoopCalls K m (π.E K N) Ct ++
    [.fwd K (xorBlock (lengthBlock r) finalOffset),
     .fwd K (xorBlock (tri finalOffset) (xorBlock loop.checksum Tf))])

/-- The calls of a DECRYPT: none when it raises NotKeyed, MalformedPacket or Replay
(60_exceptions.md R157). -/
def decryptCalls (P : Params) (payload : List Byte) (s : State) : List PortCall :=
  if s.keyValid then
    match wireOperand P.maxPlain payload with
    | none => []
    | some w =>
      let c := candidate P.window s.div w.header
      if seen s c then [] else ocbDecCalls P.port s.key (le16 c) w.ciphertext
  else []

/-- The calls of a command (60_exceptions.md R157). -/
def portCalls (P : Params) (i : Instr) (s : State) : List PortCall :=
  match i with
  | .ocbEncrypt p =>
    match ocbEncryptOperands P.maxPlain p with
    | some (K, N, Pt) => ocbEncCalls P.port K N Pt
    | none => []
  | .ocbDecrypt p =>
    match ocbDecryptOperands P.maxPlain p with
    | some (K, N, _, Ct) => ocbDecCalls P.port K N Ct
    | none => []
  | .encrypt p =>
    if p.length ≤ P.maxPlain ∧ s.keyValid = true then
      ocbEncCalls P.port s.key (le16 (ivIncrement s.eiv)) p
    else []
  | .decrypt p => decryptCalls P p s
  | .gfZero _ => []
  | .gfXor _ => []
  | .gfDouble _ => []
  | .gfTriple _ => []
  | .setKey _ => []
  | .new _ => []
  | .rwProbe _ => []
  | .readReg _ => []

/-- Whether a call is to `E`; the others are to `Einv`. -/
def isForward : PortCall → Bool
  | .fwd _ _ => true
  | .inv _ _ => false

/-- What a port answers to a call. -/
def portAnswer (π : PermPort) : PortCall → Block
  | .fwd K B => π.E K B
  | .inv K B => π.Einv K B

/-- A command's effect under given parameters (00_scope.md R7). `exec` is this at the machine's own
parameters. -/
def perform (P : Params) (i : Instr) (s : State) : State :=
  match i with
  | .gfZero p => gfZeroCommand p s
  | .gfXor p => gfXorCommand p s
  | .gfDouble p => gfDoubleCommand p s
  | .gfTriple p => gfTripleCommand p s
  | .ocbEncrypt p => ocbEncryptCommand P p s
  | .ocbDecrypt p => ocbDecryptCommand P p s
  | .setKey p => setKeyCommand p s
  | .new p => newCommand p s
  | .encrypt p => encryptCommand P p s
  | .decrypt p => decryptCommand P p s
  | .rwProbe p => rwProbeCommand P p s
  | .readReg p => readRegCommand p s

end Sys2Proof.Machine
end

