-- ==== Sys2Proof/Safety.lean ====
section
/-! DEFINITION. What counts as a safe run, and the terms in which the claims are stated. -/

namespace Sys2Proof.Machine

/-- `s` with one more response returned and nothing else changed. -/
def State.answering (s : State) (r : Response) : State := { s with outbox := s.outbox ++ [r] }

/-- `s` after a raise: one response with that status, INFO 0 and no payload (60_exceptions.md R135). -/
def State.raising (s : State) (e : Status) : State := s.answering ⟨e, 0x00, []⟩

/-- The nine fields of the record of 10_state.md R17 have the same values in both states. -/
def SameRecord (s t : State) : Prop :=
  t.keyValid = s.keyValid ∧ t.key = s.key ∧ t.eiv = s.eiv ∧ t.div = s.div ∧ t.hist = s.hist ∧
    t.good = s.good ∧ t.late = s.late ∧ t.lost = s.lost ∧ t.resync = s.resync

/-- Every HIST slot is Empty or holds a counter whose low byte is the slot's index
(10_state.md R22). -/
def HistIndexed (s : State) : Prop :=
  ∀ (i : Nat) (h : i < 256) (c : Counter), s.hist[i] = some c → c.toNat % 256 = i

/-- Before an installation HIST is empty and the event counters are 0: only DECRYPT writes them, and
it needs a key (10_state.md R26, R31). -/
def UnkeyedIsFresh (s : State) : Prop :=
  s.keyValid = false →
    (∀ (i : Nat) (h : i < 256), s.hist[i] = none) ∧
      s.good = 0 ∧ s.late = 0 ∧ s.lost = 0 ∧ s.resync = 0

/-- A response the block may return: its payload fits RLEN, its INFO byte is a class code, and an
error carries neither INFO nor payload (30_encoding.md R49, R68). -/
def ResponseOk (r : Response) : Prop :=
  r.payload.length ≤ 65535 ∧ r.info.toNat ≤ 3 ∧ (r.status ≠ .ok → r.info = 0x00 ∧ r.payload = [])

/-- The invariant of every run from reset. -/
def Inv (s : State) : Prop :=
  HistIndexed s ∧ UnkeyedIsFresh s ∧ ∀ r ∈ s.outbox, ResponseOk r

/-- The two commands that install a key. -/
def installs : Instr → Bool
  | .setKey _ => true
  | .new _ => true
  | .gfZero _ => false
  | .gfXor _ => false
  | .gfDouble _ => false
  | .gfTriple _ => false
  | .ocbEncrypt _ => false
  | .ocbDecrypt _ => false
  | .encrypt _ => false
  | .decrypt _ => false
  | .rwProbe _ => false
  | .readReg _ => false

/-- The commands that read no state: the GF and the OCB commands (44_cryptstate.md R134). -/
def keyless : Instr → Bool
  | .gfZero _ => true
  | .gfXor _ => true
  | .gfDouble _ => true
  | .gfTriple _ => true
  | .ocbEncrypt _ => true
  | .ocbDecrypt _ => true
  | .setKey _ => false
  | .new _ => false
  | .encrypt _ => false
  | .decrypt _ => false
  | .rwProbe _ => false
  | .readReg _ => false

/-- The payload layout rule of each opcode, read off 30_encoding.md R51 to R61 and R63. DECRYPT has
none: its packet checks are not layout checks (R60). -/
def LayoutOk (maxPlain : Nat) : Instr → Prop
  | .gfZero _ => True
  | .gfXor p => p.length % 2 = 0
  | .gfDouble p => p.length = 16
  | .gfTriple p => p.length = 16
  | .ocbEncrypt p => 32 ≤ p.length ∧ p.length ≤ 32 + maxPlain
  | .ocbDecrypt p => 35 ≤ p.length ∧ p.length ≤ 35 + maxPlain
  | .setKey p =>
    ∃ k e d : List Byte, k.length ≤ 255 ∧ e.length ≤ 255 ∧ d.length ≤ 255 ∧
      p = lengthPrefixed k ++ lengthPrefixed e ++ lengthPrefixed d
  | .new p => p = []
  | .encrypt p => p.length ≤ maxPlain
  | .decrypt _ => True
  | .rwProbe p => p.length = 1
  | .readReg p => p.length = 1

/-- The listed opcodes (30_encoding.md R50). -/
def listedOpcodes : List Byte :=
  [0x10, 0x11, 0x12, 0x13, 0x20, 0x21, 0x30, 0x31, 0x40, 0x41, 0x42, 0x50]

/-- Run a list of commands one after the other (70_reset_and_hazards.md R177). -/
def runCommands : List Instr → State → Host.Outcome State Fault Refusal
  | [], s => .next s
  | i :: rest, s =>
    match exec i s with
    | .next t => runCommands rest t
    | .fault f => .fault f
    | .refused r => .refused r

end Sys2Proof.Machine
end

