-- ==== Sys2Proof/Certificates/Slice0/Obligations.lean ====
section
/-! DEFINITION. The statements for the provers. Rules are cited by number; the file each stands in is
in OBLIGATIONS.json. -/

open Sys2Proof Sys2Proof.Machine

/-! ### Reset, inputs and the decoder -/

/-- R31, the elements that have a reset value. KEY, EIV and DIV hold none there: the zeros the model
puts in are its own choice (log 1) and this says nothing of them. -/
def Obligations.ResetRecordIsUnkeyedAndEmpty : Prop :=
  State.reset.keyValid = false ∧ (∀ (i : Nat) (h : i < 256), State.reset.hist[i] = none) ∧
    State.reset.good = 0 ∧ State.reset.late = 0 ∧ State.reset.lost = 0 ∧ State.reset.resync = 0

/-- R31 and the "any value" row of 93_implementation_defined.md: while KEY_VALID is 0, no command's
responses or other effects depend on what KEY, EIV and DIV hold, so the model's zeros (log 1) cannot
be told from any other values. -/
def Obligations.UnkeyedValuesAreUnobservable : Prop :=
  ∀ (i : Instr) (s : State) (k : Key) (e d : Counter), s.keyValid = false →
    ∃ t t' : State, exec i s = .next t ∧
      exec i { s with key := k, eiv := e, div := d } = .next t' ∧ t'.outbox = t.outbox ∧
      (t.keyValid = true → t' = t) ∧
      (t.keyValid = false → t' = { t with key := k, eiv := e, div := d })

/-- R161: the reset input sets every state element to its reset value, gives no response, and leaves
what the host and the random source have in hand (the model's own fields, log 14). -/
def Obligations.ResetInputRestoresTheResetRecord : Prop :=
  ∀ (s : State) (rest : List HostInput), s.inbox = .reset :: rest →
    ∃ t : State, step s = .next t ∧ SameRecord State.reset t ∧ t.inbox = rest ∧
      t.outbox = s.outbox ∧ t.rng = s.rng ∧ t.rngCalls = s.rngCalls

/-- R162: with no input waiting the block waits (log 2). -/
def Obligations.StepWaitsWithoutInput : Prop :=
  ∀ s : State, s.inbox = [] → step s = .next s

/-- A step runs the decoded command: when the oldest input is a frame that decodes to a well-formed
command, the step is that command's meaning on the state with the frame taken off the inbox. -/
def Obligations.StepRunsTheDecodedCommand : Prop :=
  ∀ (s : State) (bytes : List Byte) (rest : List HostInput) (i : Instr),
    s.inbox = .frame bytes :: rest → decode bytes = .ok i → i.WellFormed →
      step s = exec i { s with inbox := rest }

/-- R66: a reserved OPC, and a listed OPC whose payload breaks its layout rule, raise IllegalCommand
with no state change. -/
def Obligations.IllegalEncodingsRaiseIllegalCommand : Prop :=
  (∀ (s : State) (opc lo hi : Byte) (payload : List Byte) (rest : List HostInput),
    opc ∉ listedOpcodes → payload.length = lo.toNat + 256 * hi.toNat →
    s.inbox = .frame (opc :: lo :: hi :: payload) :: rest →
      step s = .next (State.raising { s with inbox := rest } .illegalCommand)) ∧
  (∀ (i : Instr) (s : State), ¬ LayoutOk Config.maxPlain i →
    exec i s = .next (s.raising .illegalCommand))

/-- R48 gives a truncated or run-on frame no transition; the model refuses it (log 7). -/
def Obligations.MisdeliveredFramesAreRefused : Prop :=
  ∀ (s : State) (bytes : List Byte) (rest : List HostInput), s.inbox = .frame bytes :: rest →
    (bytes.length < 3 → step s = .refused .truncatedFrame) ∧
    (∀ (opc lo hi : Byte) (payload : List Byte), bytes = opc :: lo :: hi :: payload →
      (payload.length < lo.toNat + 256 * hi.toNat → step s = .refused .truncatedFrame) ∧
      (lo.toNat + 256 * hi.toNat < payload.length → step s = .refused .runOnFrame))

/-- Decode and encode agree: for every well-formed command, with every payload a frame admits,
decoding its encoding gives it back (R47, R50, R67). -/
def Obligations.DecodeOfEncode : Prop :=
  ∀ i : Instr, i.WellFormed → decode (encode i) = .ok i

/-- Every frame the decoder accepts is the encoding of the command it reads, which is well-formed: no
two frames are one command, and no byte of a frame is dropped (R47, R50, R67). -/
def Obligations.EncodeOfDecode : Prop :=
  ∀ (bytes : List Byte) (i : Instr), decode bytes = .ok i → encode i = bytes ∧ i.WellFormed

/-- A few frames written out from R50 and the frames of 95_test_vectors.md decode to the commands they
stand for. -/
def Obligations.SampleFramesDecode : Prop :=
  decode [0x10, 0x03, 0x00, 0x01, 0x02, 0x03] = .ok (.gfZero [0x01, 0x02, 0x03]) ∧
  decode [0x31, 0x00, 0x00] = .ok (.new []) ∧
  decode [0x40, 0x02, 0x00, 0xaa, 0xbb] = .ok (.encrypt [0xaa, 0xbb]) ∧
  decode [0x42, 0x01, 0x00, 0xe6] = .ok (.rwProbe [0xe6]) ∧
  decode [0x50, 0x01, 0x00, 0x07] = .ok (.readReg [0x07]) ∧
  decode [0x00, 0x00, 0x00] = .error (.reservedOpcode 0x00)

/-- R69, R70: every assembler form, with the operand lengths it asks for, is the frame of the command
it names, and `.frame` is the raw frame of any OPC. A register's name stands for its index of R29, and a
number for itself. -/
def Obligations.AssembledFormsDecode : Prop :=
  (∀ x : List Byte, x.length ≤ 65535 → decode (assemble (.gfZero x)) = .ok (.gfZero x)) ∧
  (∀ a b : List Byte, a.length = b.length → 2 * a.length ≤ 65535 →
    decode (assemble (.gfXor a b)) = .ok (.gfXor (a ++ b))) ∧
  (∀ x : Block, decode (assemble (.gfDouble x)) = .ok (.gfDouble x.toList)) ∧
  (∀ x : Block, decode (assemble (.gfTriple x)) = .ok (.gfTriple x.toList)) ∧
  (∀ (k : Key) (n : Block) (p : List Byte), 32 + p.length ≤ 65535 →
    decode (assemble (.ocbEncrypt k n p)) = .ok (.ocbEncrypt (k.toList ++ n.toList ++ p))) ∧
  (∀ (k : Key) (n : Block) (t : Tag) (c : List Byte), 35 + c.length ≤ 65535 →
    decode (assemble (.ocbDecrypt k n t c)) =
      .ok (.ocbDecrypt (k.toList ++ n.toList ++ t.toList ++ c))) ∧
  (∀ k e d : List Byte, k.length ≤ 255 → e.length ≤ 255 → d.length ≤ 255 →
    decode (assemble (.setKey k e d)) =
      .ok (.setKey (lengthPrefixed k ++ lengthPrefixed e ++ lengthPrefixed d))) ∧
  decode (assemble .new) = .ok (.new []) ∧
  (∀ p : List Byte, p.length ≤ 65535 → decode (assemble (.encrypt p)) = .ok (.encrypt p)) ∧
  (∀ w : List Byte, w.length ≤ 65535 → decode (assemble (.decrypt w)) = .ok (.decrypt w)) ∧
  (∀ h : Byte, decode (assemble (.rwProbe h)) = .ok (.rwProbe [h])) ∧
  (∀ n : Byte, decode (assemble (.readReg (.number n))) = .ok (.readReg [n])) ∧
  decode (assemble (.readReg (.named .key))) = .ok (.readReg [0x00]) ∧
  decode (assemble (.readReg (.named .eiv))) = .ok (.readReg [0x01]) ∧
  decode (assemble (.readReg (.named .div))) = .ok (.readReg [0x02]) ∧
  decode (assemble (.readReg (.named .good))) = .ok (.readReg [0x03]) ∧
  decode (assemble (.readReg (.named .late))) = .ok (.readReg [0x04]) ∧
  decode (assemble (.readReg (.named .lost))) = .ok (.readReg [0x05]) ∧
  decode (assemble (.readReg (.named .resync))) = .ok (.readReg [0x06]) ∧
  decode (assemble (.readReg (.named .status))) = .ok (.readReg [0x07]) ∧
  (∀ k e d : Block, assemble (.setKey k.toList e.toList d.toList) =
    0x30 :: 0x33 :: 0x00 :: (0x10 :: k.toList ++ 0x10 :: e.toList ++ 0x10 :: d.toList)) ∧
  (∀ (opc : Byte) (x : List Byte), x.length ≤ 65535 →
    ∃ lo hi : Byte, assemble (.frame opc x) = opc :: lo :: hi :: x ∧
      lo.toNat + 256 * hi.toNat = x.length)

/-- R49, R141, R68: a response's bytes, its status codes and its class codes. -/
def Obligations.ResponseBytes : Prop :=
  (∀ r : Response, r.payload.length ≤ 65535 →
    ∃ lo hi : Byte, responseFrame r = statusCode r.status :: r.info :: lo :: hi :: r.payload ∧
      lo.toNat + 256 * hi.toNat = r.payload.length) ∧
  statusCode .ok = 0x00 ∧ statusCode .invalidKeyLength = 0x01 ∧
  statusCode .invalidIVLength = 0x02 ∧ statusCode .randomnessUnavailable = 0x03 ∧
  statusCode .malformedPacket = 0x04 ∧ statusCode .authenticationFailure = 0x05 ∧
  statusCode .replay = 0x06 ∧ statusCode .outOfWindow = 0x07 ∧ statusCode .notKeyed = 0x08 ∧
  statusCode .illegalCommand = 0x09 ∧ classCode .good = 0x00 ∧ classCode .late = 0x01 ∧
  classCode .lost = 0x02 ∧ classCode .resync = 0x03

/-- R7, R27: the machine's parameters. The port is a permutation with its inverse, MAX_PLAIN lies in
512..65500, and LATE_MAX = 29 and AHEAD_MAX = 127. -/
def Obligations.MachineParametersAreLegal : Prop :=
  Config.port.Lawful ∧ 512 ≤ Config.maxPlain ∧ Config.maxPlain ≤ 65500 ∧
    Config.window.lateMax = 29 ∧ Config.window.aheadMax = 127

/-! ### GaloisFieldDoubler -/

/-- R71: GF_ZERO takes any payload and returns as many zero bytes. -/
def Obligations.GfZeroReturnsZeroBytes : Prop :=
  ∀ (p : List Byte) (s : State), opcodeOf (.gfZero p) = 0x10 ∧
    exec (.gfZero p) s = .next (s.answering ⟨.ok, 0x00, List.replicate p.length 0⟩)

/-- R72: GF_XOR returns the byte-wise exclusive-or of its two halves, and raises IllegalCommand for an
odd payload. -/
def Obligations.GfXorCombinesTheHalves : Prop :=
  ∀ s : State,
    (∀ p : List Byte, opcodeOf (.gfXor p) = 0x11 ∧
      (p.length % 2 = 1 → exec (.gfXor p) s = .next (s.raising .illegalCommand))) ∧
    (∀ a b : List Byte, a.length = b.length →
      ∃ y : List Byte, exec (.gfXor (a ++ b)) s = .next (s.answering ⟨.ok, 0x00, y⟩) ∧
        y.length = a.length ∧ ∀ i < a.length, y.getD i 0 = a.getD i 0 ^^^ b.getD i 0)

/-- R74, R75: GF_DOUBLE returns `dbl(X)`, given both by bytes and as a number, and raises
IllegalCommand for any length but 16. -/
def Obligations.GfDoubleShiftsAndReduces : Prop :=
  ∀ s : State,
    (∀ p : List Byte, opcodeOf (.gfDouble p) = 0x12 ∧
      (p.length ≠ 16 → exec (.gfDouble p) s = .next (s.raising .illegalCommand))) ∧
    (∀ X : Block, ∃ Y : Block,
      exec (.gfDouble X.toList) s = .next (s.answering ⟨.ok, 0x00, Y.toList⟩) ∧ Y = dbl X ∧
      (∀ (i : Nat) (h : i < 15), Y[i] = (X[i] <<< 1) ||| (X[i + 1] >>> 7)) ∧
      Y[15] = (X[15] <<< 1) ^^^ (if 128 ≤ X[0].toNat then 0x87 else 0x00) ∧
      valBe Y.toList = (2 * valBe X.toList % 2 ^ 128) ^^^
        (if 2 ^ 127 ≤ valBe X.toList then 0x87 else 0))

/-- R76, R77: GF_TRIPLE returns `xorb(dbl(X), X)`, and raises IllegalCommand for any length but 16. -/
def Obligations.GfTripleAddsTheDouble : Prop :=
  ∀ s : State,
    (∀ p : List Byte, opcodeOf (.gfTriple p) = 0x13 ∧
      (p.length ≠ 16 → exec (.gfTriple p) s = .next (s.raising .illegalCommand))) ∧
    (∀ X : Block, ∃ Y : Block,
      exec (.gfTriple X.toList) s = .next (s.answering ⟨.ok, 0x00, Y.toList⟩) ∧ Y = tri X ∧
      (∀ (i : Nat) (h : i < 16), Y[i] = (dbl X)[i] ^^^ X[i]))

/-- R73: read a block as the polynomial over GF(2) whose coefficient of x^i is bit i of `val_be`. Then
`dbl` is multiplication by x modulo x^128 + x^7 + x^2 + x + 1, `tri` is multiplication by x + 1, and
`xorb` is addition. -/
def Obligations.DoublingIsMultiplicationByX : Prop :=
  ∀ poly : Block → Polynomial (ZMod 2),
    (∀ B : Block, poly B = ∑ i ∈ Finset.range 128,
      if (valBe B.toList).testBit i then Polynomial.X ^ i else 0) →
    ∀ A B : Block,
      (Polynomial.X ^ 128 + Polynomial.X ^ 7 + Polynomial.X ^ 2 + Polynomial.X + 1 :
          Polynomial (ZMod 2)) ∣ Polynomial.X * poly A - poly (dbl A) ∧
      (Polynomial.X ^ 128 + Polynomial.X ^ 7 + Polynomial.X ^ 2 + Polynomial.X + 1 :
          Polynomial (ZMod 2)) ∣ (Polynomial.X + 1) * poly A - poly (tri A) ∧
      poly (xorBlock A B) = poly A + poly B

/-- R78: `dbl` and `tri` are linear bijections, halving undoes `dbl`, and `xorb` is associative and
commutative with `xorb(A, A) = 0^n` and `xorb(A, 0^n) = A`. -/
def Obligations.GaloisFieldLaws : Prop :=
  (∀ A B : Block, dbl (xorBlock A B) = xorBlock (dbl A) (dbl B)) ∧
  (∀ A B : Block, tri (xorBlock A B) = xorBlock (tri A) (tri B)) ∧
  Function.Bijective dbl ∧ Function.Bijective tri ∧
  (∀ X : Block, valBe X.toList =
    if valBe (dbl X).toList % 2 = 1 then (valBe (dbl X).toList ^^^ 0x87) / 2 + 2 ^ 127
    else valBe (dbl X).toList / 2) ∧
  (∀ a b c : List Byte, xorb (xorb a b) c = xorb a (xorb b c)) ∧
  (∀ a b : List Byte, xorb a b = xorb b a) ∧
  (∀ a : List Byte, xorb a a = List.replicate a.length 0) ∧
  (∀ a : List Byte, xorb a (List.replicate a.length 0) = a)

/-! ### OCBCore -/

/-- R83: the split of an L-byte message into m loop blocks and a final block of r bytes. -/
def Obligations.BlockSplitCoversTheMessage : Prop :=
  ∀ L : Nat, 16 * loopBlocks L + tailLength L = L ∧ (L = 0 → loopBlocks L = 0) ∧
    (1 ≤ L → loopBlocks L = (L - 1) / 16 ∧ 1 ≤ tailLength L ∧ tailLength L ≤ 16)

/-- R84, R85, R86: encryption block by block. Loop block i is `E(P_i ⊕ Δ_{i+1}) ⊕ Δ_{i+1}` with
`Δ_{j+1} = dbl(Δ_j)`; the final block is masked by the pad, whose tail completes the checksum; the tag
is `E(tri(Δ_f) ⊕ Σ)`. -/
def Obligations.EncryptionBlockByBlock : Prop :=
  ∀ (π : PermPort) (K : Key) (N : Block) (Pt : List Byte) (m r : Nat) (Δ P : Nat → Block)
    (Λ Pad Tf : Block),
    m = loopBlocks Pt.length → r = Pt.length - 16 * m → Δ 0 = π.E K N →
    (∀ j, Δ (j + 1) = dbl (Δ j)) → (∀ i, P i = blockOf ((Pt.drop (16 * i)).take 16)) →
    Λ.toList = List.replicate 15 0 ++ [BitVec.ofNat 8 (8 * r)] →
    Pad = π.E K (xorBlock Λ (Δ (m + 1))) →
    Tf.toList = Pt.drop (16 * m) ++ Pad.toList.drop r →
    (ocbEnc π K N Pt).1.length = Pt.length ∧
    (∀ i < m, (((ocbEnc π K N Pt).1.drop (16 * i)).take 16) =
      (xorBlock (π.E K (xorBlock (P i) (Δ (i + 1)))) (Δ (i + 1))).toList) ∧
    (ocbEnc π K N Pt).1.drop (16 * m) = xorb (Pt.drop (16 * m)) (Pad.toList.take r) ∧
    (ocbEnc π K N Pt).2 = π.E K (xorBlock (tri (Δ (m + 1)))
      (xorBlock ((List.range m).foldl (fun sum i => xorBlock sum (P i)) zeroBlock) Tf))

/-- R88, R89, R90: decryption block by block, with the inverse permutation in the loop and the forward
one for the pad and the tag. The padded final block is the recovered plaintext followed by the pad's
tail, as it is on encryption. -/
def Obligations.DecryptionBlockByBlock : Prop :=
  ∀ (π : PermPort) (K : Key) (N : Block) (Ct : List Byte) (m r : Nat) (Δ P : Nat → Block)
    (Λ Pad Tf : Block),
    m = loopBlocks Ct.length → r = Ct.length - 16 * m → Δ 0 = π.E K N →
    (∀ j, Δ (j + 1) = dbl (Δ j)) →
    (∀ i, P i = xorBlock (π.Einv K (xorBlock (blockOf ((Ct.drop (16 * i)).take 16))
      (Δ (i + 1)))) (Δ (i + 1))) →
    Λ.toList = List.replicate 15 0 ++ [BitVec.ofNat 8 (8 * r)] →
    Pad = π.E K (xorBlock Λ (Δ (m + 1))) →
    Tf.toList = xorb (Ct.drop (16 * m) ++ List.replicate (16 - r) 0) Pad.toList →
    (ocbDec π K N Ct).1.length = Ct.length ∧
    (∀ i < m, (((ocbDec π K N Ct).1.drop (16 * i)).take 16) = (P i).toList) ∧
    (ocbDec π K N Ct).1.drop (16 * m) = Tf.toList.take r ∧
    Tf.toList = (ocbDec π K N Ct).1.drop (16 * m) ++ Pad.toList.drop r ∧
    (ocbDec π K N Ct).2 = π.E K (xorBlock (tri (Δ (m + 1)))
      (xorBlock ((List.range m).foldl (fun sum i => xorBlock sum (P i)) zeroBlock) Tf))

/-- R95: for every permutation pair that meets the law, decryption undoes encryption, the tag verifies,
and lengths are kept. -/
def Obligations.OcbRoundTrip : Prop :=
  ∀ (π : PermPort) (K : Key) (N : Block) (Pt Ct : List Byte) (tagFull : Block), π.Lawful →
    ocbEnc π K N Pt = (Ct, tagFull) →
    ocbDec π K N Ct = (Pt, tagFull) ∧
    ocbVerify π K N #v[tagFull[0], tagFull[1], tagFull[2]] Ct = some Pt ∧ Ct.length = Pt.length

/-- R92: verification releases the plaintext exactly when the three tag bytes agree with bytes 0, 1
and 2 of the recomputed tag. -/
def Obligations.VerifyComparesThreeTagBytes : Prop :=
  ∀ (π : PermPort) (K : Key) (N : Block) (T : Tag) (Ct : List Byte),
    ocbVerify π K N T Ct =
      if (ocbDec π K N Ct).2[0] = T[0] ∧ (ocbDec π K N Ct).2[1] = T[1] ∧
          (ocbDec π K N Ct).2[2] = T[2]
      then some (ocbDec π K N Ct).1 else none

/-- R93: OCB_ENCRYPT returns the ciphertext and the full tag, L + 16 bytes, and raises IllegalCommand
for a short or an over-long payload. -/
def Obligations.OcbEncryptReturnsCiphertextAndTag : Prop :=
  ∀ s : State,
    (∀ p : List Byte, opcodeOf (.ocbEncrypt p) = 0x20 ∧
      (p.length < 32 ∨ Config.maxPlain < p.length - 32 →
        exec (.ocbEncrypt p) s = .next (s.raising .illegalCommand))) ∧
    (∀ (K : Key) (N : Block) (Pt : List Byte), Pt.length ≤ Config.maxPlain →
      ∃ y : List Byte, exec (.ocbEncrypt (K.toList ++ N.toList ++ Pt)) s =
          .next (s.answering ⟨.ok, 0x00, y⟩) ∧
        y = (ocbEnc Config.port K N Pt).1 ++ (ocbEnc Config.port K N Pt).2.toList ∧
        y.length = Pt.length + 16)

/-- R94 with R92: OCB_DECRYPT returns the plaintext exactly when the received tag is the first three
bytes of the recomputed one, else raises AuthenticationFailure with an empty payload, and raises
IllegalCommand for a bad payload length. -/
def Obligations.OcbDecryptReleasesOnlyOnTagMatch : Prop :=
  ∀ s : State,
    (∀ p : List Byte, opcodeOf (.ocbDecrypt p) = 0x21 ∧
      (p.length < 35 ∨ Config.maxPlain < p.length - 35 →
        exec (.ocbDecrypt p) s = .next (s.raising .illegalCommand))) ∧
    (∀ (K : Key) (N : Block) (t₀ t₁ t₂ : Byte) (Ct : List Byte), Ct.length ≤ Config.maxPlain →
      exec (.ocbDecrypt (K.toList ++ N.toList ++ [t₀, t₁, t₂] ++ Ct)) s =
        if (ocbDec Config.port K N Ct).2.toList.take 3 = [t₀, t₁, t₂]
        then .next (s.answering ⟨.ok, 0x00, (ocbDec Config.port K N Ct).1⟩)
        else .next (s.raising .authenticationFailure))

/-- R95 through the commands: what OCB_ENCRYPT returned, OCB_DECRYPT opens. -/
def Obligations.OcbCommandsRoundTrip : Prop :=
  ∀ (s s' : State) (K : Key) (N : Block) (Pt : List Byte), Pt.length ≤ Config.maxPlain →
    ∃ (Ct : List Byte) (tagFull : Block),
      exec (.ocbEncrypt (K.toList ++ N.toList ++ Pt)) s =
        .next (s.answering ⟨.ok, 0x00, Ct ++ tagFull.toList⟩) ∧ Ct.length = Pt.length ∧
      exec (.ocbDecrypt (K.toList ++ N.toList ++ tagFull.toList.take 3 ++ Ct)) s' =
        .next (s'.answering ⟨.ok, 0x00, Pt⟩)

/-- R157: how many calls each command makes to E and to Einv. A command that raises before it reaches
the port makes none. A DECRYPT reaches the tag check when HIST does not hold its candidate: that this is
so of the candidate DIV too after acceptances of counters behind DIV only, where R130 gives Replay and
so no call, is the model's choice (log 17). -/
def Obligations.PortCallCounts : Prop :=
  ∀ (P : Params) (s : State),
    (∀ (K : Key) (N : Block) (Pt : List Byte), Pt.length ≤ P.maxPlain →
      (portCalls P (.ocbEncrypt (K.toList ++ N.toList ++ Pt)) s).countP isForward =
        (Pt.length + 15) / 16 - 1 + 3 ∧
      (portCalls P (.ocbEncrypt (K.toList ++ N.toList ++ Pt)) s).countP (!isForward ·) = 0) ∧
    (∀ Pt : List Byte, Pt.length ≤ P.maxPlain → s.keyValid = true →
      (portCalls P (.encrypt Pt) s).countP isForward = (Pt.length + 15) / 16 - 1 + 3 ∧
      (portCalls P (.encrypt Pt) s).countP (!isForward ·) = 0) ∧
    (∀ (K : Key) (N : Block) (T : Tag) (Ct : List Byte), Ct.length ≤ P.maxPlain →
      (portCalls P (.ocbDecrypt (K.toList ++ N.toList ++ T.toList ++ Ct)) s).countP isForward = 3 ∧
      (portCalls P (.ocbDecrypt (K.toList ++ N.toList ++ T.toList ++ Ct)) s).countP
        (!isForward ·) = (Ct.length + 15) / 16 - 1) ∧
    (∀ (h t₀ t₁ t₂ : Byte) (Ct : List Byte), Ct.length ≤ P.maxPlain → s.keyValid = true →
      seen s (candidate P.window s.div h) = false →
      (portCalls P (.decrypt (h :: t₀ :: t₁ :: t₂ :: Ct)) s).countP isForward = 3 ∧
      (portCalls P (.decrypt (h :: t₀ :: t₁ :: t₂ :: Ct)) s).countP (!isForward ·) =
        (Ct.length + 15) / 16 - 1) ∧
    (∀ (i : Instr) (t : State) (r : Response), perform P i s = t → t.outbox = s.outbox ++ [r] →
      r.status = .illegalCommand ∨ r.status = .notKeyed ∨ r.status = .malformedPacket ∨
        r.status = .replay → portCalls P i s = []) ∧
    (∀ p : List Byte, portCalls P (.gfZero p) s = [] ∧ portCalls P (.gfXor p) s = [] ∧
      portCalls P (.gfDouble p) s = [] ∧ portCalls P (.gfTriple p) s = [] ∧
      portCalls P (.setKey p) s = [] ∧ portCalls P (.new p) s = [] ∧
      portCalls P (.rwProbe p) s = [] ∧ portCalls P (.readReg p) s = [])

/-- R87, R90, R157: the calls listed for a command are all it makes. Its effect is the same under two
ports that answer those calls alike, and `exec` is the effect at the machine's parameters. -/
def Obligations.CommandsDependOnlyOnTheirPortCalls : Prop :=
  ∀ (P P' : Params) (i : Instr) (s : State), P'.maxPlain = P.maxPlain → P'.window = P.window →
    (∀ q ∈ portCalls P i s, portAnswer P'.port q = portAnswer P.port q) →
    perform P' i s = perform P i s ∧ exec i s = .next (perform Config.params i s)

/-! ### IVState -/

/-- R10, R97: `le16` and `val_le` are inverse to each other, and `low` is the first byte of the image,
the counter modulo 256. -/
def Obligations.CounterImagesAreInverse : Prop :=
  (∀ v : Counter, valLe (le16 v).toList = v ∧ (le16 v)[0] = low v ∧
    (low v).toNat = v.toNat % 256) ∧
  (∀ b : Block, le16 (valLe b.toList) = b)

/-- R98: the increment as a number and as a carry through the bytes in ascending order. -/
def Obligations.IncrementCarriesThroughTheBytes : Prop :=
  ∀ v : Counter, (ivIncrement v).toNat = (v.toNat + 1) % 2 ^ 128 ∧
    (le16 (ivIncrement v)).toList = ivIncrementBytes (le16 v).toList

/-- I1 of R30 with R102: EIV moves by exactly 1 for a successful ENCRYPT, and no other command but an
installation moves it. -/
def Obligations.OnlyEncryptAndInstallationMoveEiv : Prop :=
  ∀ (i : Instr) (s t : State) (r : Response), exec i s = .next t → t.outbox = s.outbox ++ [r] →
    installs i = false →
    (∀ p : List Byte, i = .encrypt p →
      (r.status = .ok → t.eiv = s.eiv + 1) ∧ (r.status ≠ .ok → t.eiv = s.eiv)) ∧
    ((∀ p : List Byte, i ≠ .encrypt p) → t.eiv = s.eiv)

/-- R114: no command moves DIV backwards, but for the installations SET_KEY and NEW, which write any DIV
(R21, R44); any other move is forward by at most 255 − LATE_MAX = 226, and only DECRYPT makes one. -/
def Obligations.DivMovesOnlyForward : Prop :=
  ∀ (i : Instr) (s t : State), exec i s = .next t → installs i = false →
    (∃ k : Nat, k ≤ 226 ∧ t.div = s.div + BitVec.ofNat 128 k) ∧
    ((∀ p : List Byte, i ≠ .decrypt p) → t.div = s.div)

/-! ### ReplayWindow -/

/-- R104, R105, for every legal window: the candidate has the header byte as its low byte and the
distance `s` from DIV; no other distance in −LATE_MAX..255 − LATE_MAX has it; so no two members of the
tolerance window share a low byte. -/
def Obligations.CandidateIsUnique : Prop :=
  ∀ (W : Window) (d : Counter) (h : Byte),
    candidate W d h = d + BitVec.ofInt 128 (candidateDistance W d h) ∧
    low (candidate W d h) = h ∧
    -(W.lateMax : Int) ≤ candidateDistance W d h ∧
    candidateDistance W d h ≤ 255 - W.lateMax ∧
    (∀ z : Int, -(W.lateMax : Int) ≤ z → z ≤ 255 - W.lateMax →
      low (d + BitVec.ofInt 128 z) = h → z = candidateDistance W d h) ∧
    (∀ z z' : Int, -(W.lateMax : Int) ≤ z → z ≤ W.aheadMax → -(W.lateMax : Int) ≤ z' →
      z' ≤ W.aheadMax → low (d + BitVec.ofInt 128 z) = low (d + BitVec.ofInt 128 z') → z = z')

/-- R106: the class of a distance, for every legal window. -/
def Obligations.ClassesFollowTheDistance : Prop :=
  ∀ (W : Window) (z : Int),
    (classOf W z = .good ↔ z = 1) ∧ (classOf W z = .late ↔ z ≤ 0) ∧
    (classOf W z = .lost ↔ 2 ≤ z ∧ z ≤ W.aheadMax) ∧ (classOf W z = .resync ↔ W.aheadMax < z)

/-- R131: RW_PROBE returns the candidate, its class and whether it is seen, and changes nothing. -/
def Obligations.RwProbeReportsTheCandidate : Prop :=
  ∀ s : State,
    (∀ p : List Byte, opcodeOf (.rwProbe p) = 0x42 ∧
      (p.length ≠ 1 → exec (.rwProbe p) s = .next (s.raising .illegalCommand))) ∧
    (s.keyValid = false → ∀ h : Byte, exec (.rwProbe [h]) s = .next (s.raising .notKeyed)) ∧
    (s.keyValid = true → ∀ (h : Byte) (c : Counter) (k : PacketClass),
      c = candidate Config.window s.div h →
      k = classOf Config.window (candidateDistance Config.window s.div h) →
      exec (.rwProbe [h]) s = .next (s.answering ⟨.ok, classCode k, (le16 c).toList ++
        [if s.hist[c.toNat % 256]'(Nat.mod_lt _ (by decide)) = some c then 0x01 else 0x00]⟩))

/-- R132: a DECRYPT with the same header byte raises Replay exactly when the probe's seen byte is
0x01. Where another rule of the spec gives another status to some of these packets, that R132 holds of
them too is the model's choice (log 15 for a seen candidate, log 17 for an unseen DIV). -/
def Obligations.ProbePredictsReplay : Prop :=
  ∀ (s : State) (h t₀ t₁ t₂ : Byte) (ct : List Byte), s.keyValid = true →
    ct.length ≤ Config.maxPlain →
    ∃ (info seenB : Byte) (image : List Byte),
      exec (.rwProbe [h]) s = .next (s.answering ⟨.ok, info, image ++ [seenB]⟩) ∧
      (exec (.decrypt (h :: t₀ :: t₁ :: t₂ :: ct)) s = .next (s.raising .replay) ↔ seenB = 0x01)

/-- R172, R173: a counter more than LATE_MAX behind DIV and more than 255 − LATE_MAX ahead of it is
never the candidate of its own header byte, so a genuine packet there is never tried under its own
nonce. What it is answered when its header byte's candidate is itself seen is the model's choice
(log 15), and this says nothing of it. -/
def Obligations.CountersOutsideTheReachAreNeverTried : Prop :=
  ∀ d p : Counter, 226 < (p - d).toNat → 29 < (d - p).toNat →
    candidate Config.window d (low p) ≠ p

/-- R172, R173 and the second half of R116: packets of counters out of reach (as in CountersOutsideTheReachAreNeverTried), each of
which fails the tag check at the candidate of its header byte, fail however many come, and change
nothing but the responses: DIV stays, so a gap is never closed by more packets. Each is tried under
another counter than its own. The status is OutOfWindow or AuthenticationFailure by the class of an
unseen candidate; that it is Replay for a seen one is the model's choice (log 15), and so is that a DIV
which is not in HIST counts as unseen (log 17). -/
def Obligations.OutOfReachPacketsNeverMoveDiv : Prop :=
  ∀ (s : State) (packets : List (Counter × Tag × List Byte)), s.keyValid = true →
    (∀ q ∈ packets, 226 < (q.1 - s.div).toNat ∧ 29 < (s.div - q.1).toNat ∧
      q.2.2.length ≤ Config.maxPlain ∧
      ocbVerify Config.port s.key (le16 (candidate Config.window s.div (low q.1))) q.2.1 q.2.2 =
        none) →
    (∀ q ∈ packets, candidate Config.window s.div (low q.1) ≠ q.1) ∧
    runCommands (packets.map fun q => .decrypt (low q.1 :: (q.2.1.toList ++ q.2.2))) s = .next
      { s with outbox := s.outbox ++ packets.map fun q =>
          ⟨if seen s (candidate Config.window s.div (low q.1)) then .replay
            else if candidateDistance Config.window s.div (low q.1) ≤ 127 then
              .authenticationFailure
            else .outOfWindow, 0x00, []⟩ }

/-! ### CryptState -/

/-- R118, R119, R120: SET_KEY with 16-byte fields installs them and empties HIST, keeps the event
counters, and its errors come in the order layout, key length, IV length. -/
def Obligations.SetKeyInstallsAndOrdersItsErrors : Prop :=
  ∀ s : State,
    (∀ p : List Byte, opcodeOf (.setKey p) = 0x30 ∧
      ((¬ ∃ k e d : List Byte, k.length ≤ 255 ∧ e.length ≤ 255 ∧ d.length ≤ 255 ∧
        p = BitVec.ofNat 8 k.length :: k ++ BitVec.ofNat 8 e.length :: e ++
          BitVec.ofNat 8 d.length :: d) →
        exec (.setKey p) s = .next (s.raising .illegalCommand))) ∧
    (∀ k e d : List Byte, k.length ≤ 255 → e.length ≤ 255 → d.length ≤ 255 →
      (k.length ≠ 16 →
        exec (.setKey (BitVec.ofNat 8 k.length :: k ++ BitVec.ofNat 8 e.length :: e ++
          BitVec.ofNat 8 d.length :: d)) s = .next (s.raising .invalidKeyLength)) ∧
      (k.length = 16 → e.length ≠ 16 ∨ d.length ≠ 16 →
        exec (.setKey (BitVec.ofNat 8 k.length :: k ++ BitVec.ofNat 8 e.length :: e ++
          BitVec.ofNat 8 d.length :: d)) s = .next (s.raising .invalidIVLength))) ∧
    (∀ (K : Key) (e d : Counter),
      exec (.setKey (0x10 :: K.toList ++ 0x10 :: (le16 e).toList ++ 0x10 :: (le16 d).toList)) s =
        .next { s with keyValid := true, key := K, eiv := e, div := d,
                       hist := Vector.replicate 256 none,
                       outbox := s.outbox ++ [⟨.ok, 0x00, []⟩] })

/-- R121, R122, R156: NEW installs the random source's 48 bytes as key, encrypt IV and decrypt IV,
raises RandomnessUnavailable with no state element changed when there are none, and IllegalCommand for
a payload. That the source's answers stand in a list whose head a NEW takes, and that `rngCalls` counts
them, is the model's choice (log 3); that an answer none is taken too is its inference (log 9). -/
def Obligations.NewInstallsTheDraw : Prop :=
  ∀ s : State,
    (∀ p : List Byte, opcodeOf (.new p) = 0x31 ∧
      (p ≠ [] → exec (.new p) s = .next (s.raising .illegalCommand))) ∧
    (∀ (R : Draw) (answers : List (Option Draw)) (K : Key) (e d : Counter),
      s.rng = some R :: answers → R.toList = K.toList ++ (le16 e).toList ++ (le16 d).toList →
      exec (.new []) s = .next
        { s with keyValid := true, key := K, eiv := e, div := d,
                 hist := Vector.replicate 256 none, rng := answers, rngCalls := s.rngCalls + 1,
                 outbox := s.outbox ++ [⟨.ok, 0x00, []⟩] }) ∧
    (∀ answers : List (Option Draw), s.rng = none :: answers →
      exec (.new []) s = .next (State.raising
        { s with rng := answers, rngCalls := s.rngCalls + 1 } .randomnessUnavailable))

/-- R121, R122 whatever the random source answers, past the run's input too (log 3): NEW either
installs some key and counters whole or raises RandomnessUnavailable and changes no state element. -/
def Obligations.NewIsAllOrNothing : Prop :=
  ∀ s : State, ∃ t : State, exec (.new []) s = .next t ∧
    ((t = { s with rng := t.rng, rngCalls := t.rngCalls,
                   outbox := s.outbox ++ [⟨.randomnessUnavailable, 0x00, []⟩] }) ∨
     (∃ (K : Key) (e d : Counter),
        t = { s with keyValid := true, key := K, eiv := e, div := d,
                     hist := Vector.replicate 256 none, rng := t.rng, rngCalls := t.rngCalls,
                     outbox := s.outbox ++ [⟨.ok, 0x00, []⟩] }))

/-- R123, R124: ENCRYPT moves EIV by 1, seals the plaintext under the new counter and returns header,
tag bytes 0, 1, 2 and ciphertext; it raises IllegalCommand when the plaintext is over-long, then
NotKeyed. -/
def Obligations.EncryptSealsUnderTheNextCounter : Prop :=
  ∀ (s : State) (Pt : List Byte), opcodeOf (.encrypt Pt) = 0x40 ∧
    (Config.maxPlain < Pt.length →
      exec (.encrypt Pt) s = .next (s.raising .illegalCommand)) ∧
    (Pt.length ≤ Config.maxPlain → s.keyValid = false →
      exec (.encrypt Pt) s = .next (s.raising .notKeyed)) ∧
    (Pt.length ≤ Config.maxPlain → s.keyValid = true →
      ∀ (c : Counter) (Ct : List Byte) (tagFull : Block), c = s.eiv + 1 →
      ocbEnc Config.port s.key (le16 c) Pt = (Ct, tagFull) →
      exec (.encrypt Pt) s = .next
        { s with eiv := c,
                 outbox := s.outbox ++
                   [⟨.ok, 0x00, (le16 c)[0] :: tagFull[0] :: tagFull[1] :: tagFull[2] :: Ct⟩] })

/-- R64: ENCRYPT of L bytes yields L + 4, DECRYPT of M bytes yields M − 4 on success. -/
def Obligations.WirePacketLengths : Prop :=
  (∀ (s t : State) (Pt : List Byte) (r : Response), exec (.encrypt Pt) s = .next t →
    t.outbox = s.outbox ++ [r] → r.status = .ok → r.payload.length = Pt.length + 4) ∧
  (∀ (s t : State) (w : List Byte) (r : Response), exec (.decrypt w) s = .next t →
    t.outbox = s.outbox ++ [r] → r.status = .ok → r.payload.length + 4 = w.length)

/-- R128, R129: DECRYPT's outcome table, row by row, in terms of u, the forward distance of the header
byte from DIV's low byte. With LATE_MAX = 29 and AHEAD_MAX = 127 the class is late for u = 0 and
227..255, good for 1, lost for 2..127 and resync for 128..226. Where another text of the spec clashes
with the table, following the table is the model's choice: NotKeyed for an unkeyed over-long packet
(log 16), Replay for a seen candidate that is not the packet's own counter (log 15), and no Replay for a
DIV that is not in HIST (log 17). -/
def Obligations.DecryptOutcomeTable : Prop :=
  ∀ s : State,
    (s.keyValid = false → ∀ w : List Byte,
      exec (.decrypt w) s = .next (s.raising .notKeyed)) ∧
    (s.keyValid = true → ∀ w : List Byte, w.length < 4 ∨ Config.maxPlain < w.length - 4 →
      exec (.decrypt w) s = .next (s.raising .malformedPacket)) ∧
    (s.keyValid = true → ∀ (h t₀ t₁ t₂ : Byte) (ct pt : List Byte) (u : Nat) (c : Counter)
      (tagFull : Block),
      ct.length ≤ Config.maxPlain → u = (h.toNat + 256 - s.div.toNat % 256) % 256 →
      c = (if 227 ≤ u then s.div - BitVec.ofNat 128 (256 - u)
        else s.div + BitVec.ofNat 128 u) →
      ocbDec Config.port s.key (le16 c) ct = (pt, tagFull) →
      exec (.decrypt (h :: t₀ :: t₁ :: t₂ :: ct)) s = .next
        (if s.hist[c.toNat % 256]'(Nat.mod_lt _ (by decide)) = some c then s.raising .replay
         else if ¬ (tagFull[0] = t₀ ∧ tagFull[1] = t₁ ∧ tagFull[2] = t₂) then
           s.raising (if 128 ≤ u ∧ u ≤ 226 then .outOfWindow else .authenticationFailure)
         else if u = 1 then
           { s with hist := s.hist.set (c.toNat % 256) (some c) (Nat.mod_lt _ (by decide)),
                    div := c, good := s.good + 1,
                    outbox := s.outbox ++ [⟨.ok, 0x00, pt⟩] }
         else if u = 0 ∨ 227 ≤ u then
           { s with hist := s.hist.set (c.toNat % 256) (some c) (Nat.mod_lt _ (by decide)),
                    good := s.good + 1, late := s.late + 1,
                    lost := (if s.lost = 0 then 0 else s.lost - 1),
                    outbox := s.outbox ++ [⟨.ok, 0x01, pt⟩] }
         else if u ≤ 127 then
           { s with hist := s.hist.set (c.toNat % 256) (some c) (Nat.mod_lt _ (by decide)),
                    div := c, good := s.good + 1, lost := s.lost + BitVec.ofNat 32 (u - 1),
                    outbox := s.outbox ++ [⟨.ok, 0x02, pt⟩] }
         else
           { s with hist := s.hist.set (c.toNat % 256) (some c) (Nat.mod_lt _ (by decide)),
                    div := c, good := s.good + 1, lost := s.lost + BitVec.ofNat 32 (u - 1),
                    resync := s.resync + 1,
                    outbox := s.outbox ++ [⟨.ok, 0x03, pt⟩] }))

/-- R133, R37: READ_REG of every index. -/
def Obligations.ReadRegReturnsTheRegister : Prop :=
  ∀ s : State,
    (∀ p : List Byte, opcodeOf (.readReg p) = 0x50 ∧
      (p.length ≠ 1 → exec (.readReg p) s = .next (s.raising .illegalCommand))) ∧
    exec (.readReg [0x00]) s = .next (s.raising .illegalCommand) ∧
    (s.keyValid = false → exec (.readReg [0x01]) s = .next (s.raising .notKeyed) ∧
      exec (.readReg [0x02]) s = .next (s.raising .notKeyed)) ∧
    (s.keyValid = true →
      exec (.readReg [0x01]) s = .next (s.answering ⟨.ok, 0x00, (le16 s.eiv).toList⟩) ∧
      exec (.readReg [0x02]) s = .next (s.answering ⟨.ok, 0x00, (le16 s.div).toList⟩)) ∧
    (∀ (i : Byte) (v : EventCount),
      (i = 0x03 ∧ v = s.good) ∨ (i = 0x04 ∧ v = s.late) ∨ (i = 0x05 ∧ v = s.lost) ∨
        (i = 0x06 ∧ v = s.resync) →
      exec (.readReg [i]) s = .next (s.answering ⟨.ok, 0x00,
        [BitVec.ofNat 8 v.toNat, BitVec.ofNat 8 (v.toNat / 256),
         BitVec.ofNat 8 (v.toNat / 65536), BitVec.ofNat 8 (v.toNat / 16777216)]⟩)) ∧
    exec (.readReg [0x07]) s =
      .next (s.answering ⟨.ok, 0x00, [if s.keyValid then 0x01 else 0x00]⟩) ∧
    (∀ i : Byte, 0x08 ≤ i.toNat → exec (.readReg [i]) s = .next (s.raising .illegalCommand))

/-- R134: the GF and the OCB commands answer the same in every state and each of them answers OK to legal
operands, SET_KEY and NEW have an answer OK in every state, and from reset only these and READ_REG of
indices 3 to 7 answer OK. For NEW, that the random source's next answer is the head of a list is the
model's choice (log 3). -/
def Obligations.KeylessCommandsIgnoreTheState : Prop :=
  (∀ i : Instr, keyless i = true → ∃ r : Response, ∀ s : State,
    exec i s = .next (s.answering r)) ∧
  (∀ s : State,
    (∀ p : List Byte, ∃ y : List Byte,
      exec (.gfZero p) s = .next (s.answering ⟨.ok, 0x00, y⟩)) ∧
    (∀ a b : List Byte, a.length = b.length → ∃ y : List Byte,
      exec (.gfXor (a ++ b)) s = .next (s.answering ⟨.ok, 0x00, y⟩)) ∧
    (∀ X : Block, ∃ y : List Byte,
      exec (.gfDouble X.toList) s = .next (s.answering ⟨.ok, 0x00, y⟩)) ∧
    (∀ X : Block, ∃ y : List Byte,
      exec (.gfTriple X.toList) s = .next (s.answering ⟨.ok, 0x00, y⟩)) ∧
    (∀ (K : Key) (N : Block) (Pt : List Byte), Pt.length ≤ Config.maxPlain → ∃ y : List Byte,
      exec (.ocbEncrypt (K.toList ++ N.toList ++ Pt)) s =
        .next (s.answering ⟨.ok, 0x00, y⟩)) ∧
    (∀ (K : Key) (N : Block) (Ct : List Byte), Ct.length ≤ Config.maxPlain →
      ∃ (T : Tag) (y : List Byte), exec (.ocbDecrypt (K.toList ++ N.toList ++ T.toList ++ Ct)) s =
        .next (s.answering ⟨.ok, 0x00, y⟩))) ∧
  (∀ (s : State) (K : Key) (e d : Counter), ∃ t : State,
    exec (.setKey (0x10 :: K.toList ++ 0x10 :: (le16 e).toList ++ 0x10 :: (le16 d).toList)) s =
      .next t ∧ t.outbox = s.outbox ++ [⟨.ok, 0x00, []⟩]) ∧
  (∀ (s : State) (R : Draw) (answers : List (Option Draw)), s.rng = some R :: answers →
    ∃ t : State, exec (.new []) s = .next t ∧ t.outbox = s.outbox ++ [⟨.ok, 0x00, []⟩]) ∧
  (∀ i : Byte, 0x03 ≤ i.toNat → i.toNat ≤ 0x07 → ∀ s : State, ∃ y : List Byte,
    exec (.readReg [i]) s = .next (s.answering ⟨.ok, 0x00, y⟩)) ∧
  (∀ (i : Instr) (t : State) (r : Response), exec i State.reset = .next t → t.outbox = [r] →
    r.status = .ok →
    keyless i = true ∨ installs i = true ∨
      ∃ n : Byte, i = .readReg [n] ∧ 0x03 ≤ n.toNat ∧ n.toNat ≤ 0x07)

/-- R149, R163: with KEY_VALID = 0 the four commands that need a key raise NotKeyed once their layout
holds, NotKeyed is raised by no other command and never with KEY_VALID = 1, and no command sets
KEY_VALID back to 0, so only a reset does. That an unkeyed DECRYPT raises NotKeyed also for a packet
with `M − 4 > MAX_PLAIN` is the model's choice (log 16). -/
def Obligations.NotKeyedExactlyWithoutAKey : Prop :=
  (∀ s : State, s.keyValid = false →
    (∀ p : List Byte, p.length ≤ Config.maxPlain →
      exec (.encrypt p) s = .next (s.raising .notKeyed)) ∧
    (∀ w : List Byte, exec (.decrypt w) s = .next (s.raising .notKeyed)) ∧
    (∀ h : Byte, exec (.rwProbe [h]) s = .next (s.raising .notKeyed)) ∧
    exec (.readReg [0x01]) s = .next (s.raising .notKeyed) ∧
    exec (.readReg [0x02]) s = .next (s.raising .notKeyed)) ∧
  (∀ (i : Instr) (s t : State) (r : Response), exec i s = .next t →
    t.outbox = s.outbox ++ [r] → r.status = .notKeyed →
      s.keyValid = false ∧
        ((∃ p : List Byte, i = .encrypt p) ∨ (∃ w : List Byte, i = .decrypt w) ∨
          (∃ h : Byte, i = .rwProbe [h]) ∨ i = .readReg [0x01] ∨ i = .readReg [0x02])) ∧
  (∀ (i : Instr) (s t : State), exec i s = .next t → s.keyValid = true → t.keyValid = true)

/-! ### The whole machine -/

/-- R169, R138: every command, in every state, ends with a next state and exactly one response, after
all earlier ones; no later input is touched. -/
def Obligations.EveryCommandAnswersOnce : Prop :=
  ∀ (i : Instr) (s : State), ∃ (t : State) (r : Response), exec i s = .next t ∧
    t.outbox = s.outbox ++ [r] ∧ t.inbox = s.inbox

/-- R151: a command that returns a status other than OK writes no state element, and its response
carries no payload. -/
def Obligations.ErrorsChangeNothing : Prop :=
  ∀ (i : Instr) (s t : State) (r : Response), exec i s = .next t → t.outbox = s.outbox ++ [r] →
    r.status ≠ .ok → SameRecord s t ∧ r.payload = [] ∧ r.info = 0x00

/-- The W column of R44 and the "writes state" column of R41: what each command leaves alone. -/
def Obligations.WriteFootprints : Prop :=
  ∀ (i : Instr) (s t : State), exec i s = .next t →
    t.inbox = s.inbox ∧
    (installs i = false → t.key = s.key ∧ t.keyValid = s.keyValid) ∧
    (installs i = false → (∀ p : List Byte, i ≠ .encrypt p) → t.eiv = s.eiv) ∧
    (installs i = false → (∀ p : List Byte, i ≠ .decrypt p) →
      t.div = s.div ∧ t.hist = s.hist) ∧
    ((∀ p : List Byte, i ≠ .decrypt p) →
      t.good = s.good ∧ t.late = s.late ∧ t.lost = s.lost ∧ t.resync = s.resync) ∧
    ((∀ p : List Byte, i ≠ .new p) → t.rng = s.rng ∧ t.rngCalls = s.rngCalls)

/-- R41: a command other than NEW, ENCRYPT and DECRYPT, sent again, returns the same response and
changes no state element any further. -/
def Obligations.RepeatedCommandsAreIdempotent : Prop :=
  ∀ (i : Instr) (s t t' : State), (∀ p : List Byte, i ≠ .new p ∧ i ≠ .encrypt p ∧ i ≠ .decrypt p) →
    exec i s = .next t → exec i t = .next t' →
    SameRecord t t' ∧ ∃ r : Response, t.outbox = s.outbox ++ [r] ∧ t'.outbox = s.outbox ++ [r, r]

/-- R44: ENCRYPT and DECRYPT commute. In either order each returns the same response and the record
ends the same. -/
def Obligations.EncryptAndDecryptCommute : Prop :=
  ∀ (s : State) (pt w : List Byte), ∃ (s₁ s₂ t t' : State) (re rd : Response),
    exec (.encrypt pt) s = .next s₁ ∧ exec (.decrypt w) s₁ = .next t ∧
    exec (.decrypt w) s = .next s₂ ∧ exec (.encrypt pt) s₂ = .next t' ∧
    t.outbox = s.outbox ++ [re, rd] ∧ t'.outbox = s.outbox ++ [rd, re] ∧
    t' = { t with outbox := s.outbox ++ [rd, re] }

/-- R178, I4 of R30: a command other than ENCRYPT and DECRYPT gives the same response and the same
other effects whatever KEY holds. -/
def Obligations.KeyIsNeverReadBack : Prop :=
  ∀ (i : Instr) (s t : State) (k : Key), (∀ p : List Byte, i ≠ .encrypt p ∧ i ≠ .decrypt p) →
    exec i s = .next t →
    ∃ t' : State, exec i { s with key := k } = .next t' ∧ t'.outbox = t.outbox ∧
      t' = { t with key := t'.key } ∧ (t'.key = k ∨ t'.key = t.key)

/-- The invariant holds at reset. -/
def Obligations.ResetMeetsTheInvariant : Prop := Inv State.reset

/-- Every step keeps the invariant, from every state that meets it: HIST slots hold counters of their
own low byte (R22), an unkeyed block has an empty history and zero counters (R26, R31), and every
response is one the block may return (R49, R68, R151). -/
def Obligations.StepKeepsTheInvariant : Prop :=
  ∀ s t : State, Inv s → step s = .next t → Inv t

/-- R95, R123, R126: a packet that a peer with the same key sealed under counter c is accepted with its
plaintext wherever c lies in the receiver's reach and is not seen, and its class is that of its
distance. At distance 0, that a DIV which no acceptance put in HIST is unseen even after a late
acceptance is the model's choice (log 17). -/
def Obligations.PairedPacketsAreAccepted : Prop :=
  ∀ (a b : State) (pt : List Byte) (z : Int), a.keyValid = true → b.keyValid = true →
    b.key = a.key → pt.length ≤ Config.maxPlain → -29 ≤ z → z ≤ 226 →
    a.eiv + 1 = b.div + BitVec.ofInt 128 z → seen b (a.eiv + 1) = false →
    ∃ (a' b' : State) (w : List Byte),
      exec (.encrypt pt) a = .next a' ∧ a'.outbox = a.outbox ++ [⟨.ok, 0x00, w⟩] ∧
      exec (.decrypt w) b = .next b' ∧
      b'.outbox = b.outbox ++ [⟨.ok, classCode (classOf Config.window z), pt⟩] ∧
      seen b' (a.eiv + 1) = true ∧ (1 ≤ z → b'.div = a.eiv + 1) ∧ (z ≤ 0 → b'.div = b.div)

/-- R115: packets N, N + 1, N + 2 submitted in the order N, N + 2, N + 1 with DIV = N − 1 are accepted
as good, lost and late, and LOST ends as it was. The premise on LOST excludes only the wrap of its
32 bits in between. -/
def Obligations.ReorderedPacketsAreAccepted : Prop :=
  ∀ (a b : State) (p₁ p₂ p₃ : List Byte), a.keyValid = true → b.keyValid = true → b.key = a.key →
    b.div = a.eiv → p₁.length ≤ Config.maxPlain → p₂.length ≤ Config.maxPlain →
    p₃.length ≤ Config.maxPlain → seen b (a.eiv + 1) = false → seen b (a.eiv + 2) = false →
    seen b (a.eiv + 3) = false → b.lost + 1 ≠ 0 →
    ∃ (a₁ a₂ a₃ b₁ b₂ b₃ : State) (w₁ w₂ w₃ : List Byte),
      exec (.encrypt p₁) a = .next a₁ ∧ a₁.outbox = a.outbox ++ [⟨.ok, 0x00, w₁⟩] ∧
      exec (.encrypt p₂) a₁ = .next a₂ ∧ a₂.outbox = a₁.outbox ++ [⟨.ok, 0x00, w₂⟩] ∧
      exec (.encrypt p₃) a₂ = .next a₃ ∧ a₃.outbox = a₂.outbox ++ [⟨.ok, 0x00, w₃⟩] ∧
      exec (.decrypt w₁) b = .next b₁ ∧ b₁.outbox = b.outbox ++ [⟨.ok, 0x00, p₁⟩] ∧
      exec (.decrypt w₃) b₁ = .next b₂ ∧ b₂.outbox = b₁.outbox ++ [⟨.ok, 0x02, p₃⟩] ∧
      b₂.lost = b.lost + 1 ∧
      exec (.decrypt w₂) b₂ = .next b₃ ∧ b₃.outbox = b₂.outbox ++ [⟨.ok, 0x01, p₂⟩] ∧
      b₃.div = b.div + 3 ∧ b₃.good = b.good + 3 ∧ b₃.late = b.late + 1 ∧ b₃.lost = b.lost ∧
      b₃.resync = b.resync

/-- R116, I3 of R30: once DECRYPT has accepted a packet at counter c, then after any commands other than
installations, as long as c is still within LATE_MAX of DIV, a packet with the same header byte is a
replay, whatever its tag and ciphertext: R116 says so of the packet submitted again and R130 of a copy
with a tampered tag or ciphertext; that it holds of a genuine packet of another counter or epoch with
that low byte too is the model's choice (log 15). The bound on the number of commands excludes only a turn of
the 128-bit counter all the way round. -/
def Obligations.AcceptedCountersAreReplays : Prop :=
  ∀ (s t u : State) (h t₀ t₁ t₂ : Byte) (ct : List Byte) (r : Response) (c : Counter)
    (cmds : List Instr),
    exec (.decrypt (h :: t₀ :: t₁ :: t₂ :: ct)) s = .next t → t.outbox = s.outbox ++ [r] →
    r.status = .ok → c = candidate Config.window s.div h →
    (∀ i ∈ cmds, installs i = false) → cmds.length ≤ 2 ^ 100 → runCommands cmds t = .next u →
    (u.div - c).toNat ≤ 29 →
    ∀ (t₀' t₁' t₂' : Byte) (ct' : List Byte), ct'.length ≤ Config.maxPlain →
      exec (.decrypt (h :: t₀' :: t₁' :: t₂' :: ct')) u = .next (u.raising .replay)
end

