-- ==== Sys2Proof/Laws/Bytes.lean ====
section
/-! SUPPORT. Byte lists, blocks, tags and the byte images of counters: what each helper of
Operands.lean and each block operation of GaloisField.lean gives, byte by byte. -/

namespace Sys2Proof.Machine

/-! ### Blocks and tags -/

theorem getElem_blockOf (l : List Byte) (i : Nat) (h : i < 16) :
    (blockOf l)[i] = l.getD i 0 := by
  simp [blockOf]

@[simp] theorem blockOf_toList (B : Block) : blockOf B.toList = B := by
  ext i hi
  simp [blockOf, List.getD_eq_getElem?_getD]

theorem blockOf_eq_of_toList {B : Block} {l : List Byte} (h : B.toList = l) : blockOf l = B := by
  rw [← h, blockOf_toList]

/-- A short list is padded with zero bytes. -/
theorem toList_blockOf {l : List Byte} (h : l.length ≤ 16) :
    (blockOf l).toList = l ++ List.replicate (16 - l.length) 0 := by
  apply List.ext_getElem
  · simp; omega
  · intro i h₁ _
    have hi : i < 16 := by simpa using h₁
    simp only [Vector.getElem_toList, getElem_blockOf _ _ hi, List.getD_eq_getElem?_getD]
    by_cases hl : i < l.length
    · simp [hl]
    · rw [List.getElem_append_right (by omega)]
      simp [hl]

theorem toList_blockOf_of_length {l : List Byte} (h : l.length = 16) : (blockOf l).toList = l := by
  simp [toList_blockOf (Nat.le_of_eq h), h]

@[simp] theorem getElem_xorBlock (a b : Block) (i : Nat) (h : i < 16) :
    (xorBlock a b)[i] = a[i] ^^^ b[i] := by
  simp [xorBlock]

theorem xorBlock_toList (A B : Block) : (xorBlock A B).toList = xorb A.toList B.toList := by
  apply List.ext_getElem
  · simp [xorb]
  · intro i h₁ _
    have hi : i < 16 := by simpa using h₁
    simp [xorb, getElem_xorBlock _ _ _ hi]

@[simp] theorem xorBlock_cancel (a b : Block) : xorBlock (xorBlock a b) b = a := by
  ext i h
  simp

@[simp] theorem xorb_length (a b : List Byte) : (xorb a b).length = min a.length b.length := by
  simp [xorb]

@[simp] theorem tagOf_toList (T : Tag) : tagOf T.toList = T := by
  ext i hi
  simp [tagOf, List.getD_eq_getElem?_getD]

theorem toList_tagOf (a b c : Byte) : (tagOf [a, b, c]).toList = [a, b, c] := by
  simp [tagOf, Vector.toList_ofFn, List.ofFn_succ]

theorem tag_ext {A B : Tag} (h : A.toList = B.toList) : A = B := by
  rw [← tagOf_toList A, h, tagOf_toList]

theorem truncateTag_toList (B : Block) : (truncateTag B).toList = [B[0], B[1], B[2]] := by
  simp [truncateTag, Vector.toList_ofFn, List.ofFn_succ]

theorem take_three_toList (B : Block) : B.toList.take 3 = [B[0], B[1], B[2]] := by
  apply List.ext_getElem
  · simp
  · intro i _ h
    simp only [List.length_cons, List.length_nil] at h
    interval_cases i <;> simp

/-! ### Counters -/

theorem low_toNat (v : Counter) : (low v).toNat = v.toNat % 256 := by
  simp [low]

theorem getElem_le16 (v : Counter) (i : Nat) (h : i < 16) :
    (le16 v)[i] = v.extractLsb' (8 * i) 8 := by
  simp [le16]

theorem le16_toList (v : Counter) :
    (le16 v).toList = (List.range 16).map fun i => BitVec.ofNat 8 (v.toNat / 256 ^ i) := by
  apply List.ext_getElem
  · simp
  · intro i _ _
    apply BitVec.eq_of_toNat_eq
    simp only [Vector.getElem_toList, le16, Vector.getElem_ofFn, BitVec.extractLsb'_toNat,
      Nat.shiftRight_eq_div_pow, List.getElem_map, List.getElem_range, BitVec.toNat_ofNat]
    rw [show 256 = 2 ^ 8 from rfl, ← pow_mul]

theorem valLeNat_append (l m : List Byte) :
    valLeNat (l ++ m) = valLeNat l + 256 ^ l.length * valLeNat m := by
  induction l with
  | nil => simp [valLeNat]
  | cons b bs ih =>
    simp only [List.cons_append, valLeNat, ih, List.length_cons, pow_succ]
    ring

theorem valLeNat_lt (l : List Byte) : valLeNat l < 256 ^ l.length := by
  induction l with
  | nil => simp [valLeNat]
  | cons b bs ih =>
    have := b.isLt
    simp only [valLeNat, List.length_cons, pow_succ]
    omega

/-- Byte `i` of a list is digit `i` of its little-endian value. -/
theorem toNat_getElem_valLeNat (l : List Byte) (i : Nat) (h : i < l.length) :
    (l[i]).toNat = valLeNat l / 256 ^ i % 256 := by
  induction l generalizing i with
  | nil => simp at h
  | cons b bs ih =>
    have hb := b.isLt
    cases i with
    | zero =>
      simp [valLeNat]
      omega
    | succ i =>
      rw [List.getElem_cons_succ, ih i (by simpa using h), pow_succ', ← Nat.div_div_eq_div_mul]
      congr 2
      simp only [valLeNat]
      omega

/-- The low byte of a counter moved by a signed distance. -/
theorem low_add_distance (d : Counter) (z : Int) :
    ((low (d + BitVec.ofInt 128 z)).toNat : Int) = ((d.toNat : Int) + z) % 256 := by
  rw [low_toNat, BitVec.toNat_add, BitVec.toNat_ofInt]
  omega

end Sys2Proof.Machine
end

