-- ==== Sys2Proof/Laws/Ocb.lean ====
section
/-! SUPPORT. The loops of OCBCore in closed form, their lengths, and when a tag is accepted. -/

namespace Sys2Proof.Machine

theorem loopBlocks_eq (L : Nat) : loopBlocks L = (L - 1) / 16 := by
  unfold loopBlocks
  split <;> omega

theorem tailLength_le (L : Nat) : tailLength L ≤ 16 := by
  simp only [tailLength, loopBlocks_eq]
  omega

theorem sixteen_mul_loopBlocks_le (L : Nat) : 16 * loopBlocks L ≤ L := by
  rw [loopBlocks_eq]
  omega

/-- Everything the encryption loop hands on, from offset `Δ k` with `Δ (j + 1) = dbl (Δ j)`. -/
theorem encLoop_closed (E : Block → Block) (Δ : Nat → Block) (hΔ : ∀ j, Δ (j + 1) = dbl (Δ j))
    (m : Nat) : ∀ (k : Nat) (sum : Block) (msg : List Byte),
    encLoop E m (Δ k) sum msg =
      ⟨(List.range m).flatMap fun i =>
          (xorBlock (E (xorBlock (blockOf ((msg.drop (16 * i)).take 16)) (Δ (k + i + 1))))
            (Δ (k + i + 1))).toList,
        Δ (k + m),
        (List.range m).foldl
          (fun s i => xorBlock s (blockOf ((msg.drop (16 * i)).take 16))) sum⟩ := by
  induction m with
  | zero => intros; rfl
  | succ m ih =>
    intro k sum msg
    simp only [encLoop, ← hΔ, ih, List.range_succ_eq_map, List.flatMap_cons, List.flatMap_map,
      List.foldl_cons, List.foldl_map, List.drop_drop, Nat.mul_zero, List.drop_zero,
      Nat.succ_eq_add_one, Nat.add_zero]
    refine LoopResult.mk.injEq .. ▸ ⟨?_, ?_, ?_⟩
    · refine congrArg (_ ++ ·) (List.flatMap_congr fun i _ => ?_)
      rw [show 16 + 16 * i = 16 * (i + 1) by ring, show k + 1 + i + 1 = k + (i + 1) + 1 by ring]
    · rw [show k + 1 + m = k + (m + 1) by ring]
    · refine List.foldl_ext _ _ _ fun a i _ => ?_
      rw [show 16 + 16 * i = 16 * (i + 1) by ring]

/-- Everything the decryption loop hands on. -/
theorem decLoop_closed (Einv : Block → Block) (Δ : Nat → Block) (hΔ : ∀ j, Δ (j + 1) = dbl (Δ j))
    (m : Nat) : ∀ (k : Nat) (sum : Block) (msg : List Byte),
    decLoop Einv m (Δ k) sum msg =
      ⟨(List.range m).flatMap fun i =>
          (xorBlock (Einv (xorBlock (blockOf ((msg.drop (16 * i)).take 16)) (Δ (k + i + 1))))
            (Δ (k + i + 1))).toList,
        Δ (k + m),
        (List.range m).foldl
          (fun s i => xorBlock s
            (xorBlock (Einv (xorBlock (blockOf ((msg.drop (16 * i)).take 16)) (Δ (k + i + 1))))
              (Δ (k + i + 1)))) sum⟩ := by
  induction m with
  | zero => intros; rfl
  | succ m ih =>
    intro k sum msg
    simp only [decLoop, ← hΔ, ih, List.range_succ_eq_map, List.flatMap_cons, List.flatMap_map,
      List.foldl_cons, List.foldl_map, List.drop_drop, Nat.mul_zero, List.drop_zero,
      Nat.succ_eq_add_one, Nat.add_zero]
    refine LoopResult.mk.injEq .. ▸ ⟨?_, ?_, ?_⟩
    · refine congrArg (_ ++ ·) (List.flatMap_congr fun i _ => ?_)
      rw [show 16 + 16 * i = 16 * (i + 1) by ring, show k + 1 + i + 1 = k + (i + 1) + 1 by ring]
    · rw [show k + 1 + m = k + (m + 1) by ring]
    · refine List.foldl_ext _ _ _ fun a i _ => ?_
      rw [show 16 + 16 * i = 16 * (i + 1) by ring, show k + 1 + i + 1 = k + (i + 1) + 1 by ring]

@[simp] theorem encLoop_out_length (E : Block → Block) (m : Nat) :
    ∀ (offset sum : Block) (msg : List Byte), (encLoop E m offset sum msg).out.length = 16 * m := by
  induction m with
  | zero => intros; rfl
  | succ m ih =>
    intro offset sum msg
    simp only [encLoop, List.length_append, Vector.length_toList, ih]
    ring

@[simp] theorem decLoop_out_length (Einv : Block → Block) (m : Nat) :
    ∀ (offset sum : Block) (msg : List Byte),
      (decLoop Einv m offset sum msg).out.length = 16 * m := by
  induction m with
  | zero => intros; rfl
  | succ m ih =>
    intro offset sum msg
    simp only [decLoop, List.length_append, Vector.length_toList, ih]
    ring

/-- The ciphertext is as long as the plaintext. -/
theorem ocbEnc_length (π : PermPort) (K : Key) (N : Block) (Pt : List Byte) :
    (ocbEnc π K N Pt).1.length = Pt.length := by
  have h₁ := tailLength_le Pt.length
  have h₂ : tailLength Pt.length = Pt.length - 16 * loopBlocks Pt.length := rfl
  have h₃ := sixteen_mul_loopBlocks_le Pt.length
  simp [ocbEnc]
  omega

/-- The candidate plaintext is as long as the ciphertext. -/
theorem ocbDec_length (π : PermPort) (K : Key) (N : Block) (Ct : List Byte) :
    (ocbDec π K N Ct).1.length = Ct.length := by
  have h₁ := tailLength_le Ct.length
  have h₂ : tailLength Ct.length = Ct.length - 16 * loopBlocks Ct.length := rfl
  have h₃ := sixteen_mul_loopBlocks_le Ct.length
  simp [ocbDec]
  omega

theorem tagDiff_eq_zero {a b : Tag} : tagDiff a b = 0 ↔ a[0] = b[0] ∧ a[1] = b[1] ∧ a[2] = b[2] := by
  have hx : ∀ x y : Byte, (x ||| y = 0#8) ↔ x = 0#8 ∧ y = 0#8 := fun _ _ => BitVec.or_eq_zero_iff
  rw [tagDiff, show (0 : Byte) = 0#8 from rfl, hx, hx]
  simp only [BitVec.xor_eq_zero_iff, and_assoc]

/-- Everything a successful verification says. -/
theorem ocbVerify_some {π : PermPort} {K : Key} {N : Block} {T : Tag} {Ct Pt : List Byte}
    (h : ocbVerify π K N T Ct = some Pt) :
    Pt = (ocbDec π K N Ct).1 ∧ truncateTag (ocbDec π K N Ct).2 = T := by
  simp only [ocbVerify] at h
  split at h
  · rename_i hd
    injection h with h
    refine ⟨h.symm, Vector.ext fun i hi => ?_⟩
    obtain ⟨h₀, h₁, h₂⟩ := tagDiff_eq_zero.mp hd
    interval_cases i <;> assumption
  · simp at h

theorem ocbVerify_length {π : PermPort} {K : Key} {N : Block} {T : Tag} {Ct Pt : List Byte}
    (h : ocbVerify π K N T Ct = some Pt) : Pt.length = Ct.length := by
  rw [(ocbVerify_some h).1, ocbDec_length]

theorem encLoopCalls_length (K : Key) (m : Nat) :
    ∀ (offset : Block) (msg : List Byte), (encLoopCalls K m offset msg).length = m := by
  induction m with
  | zero => intros; rfl
  | succ m ih =>
    intro offset msg
    simp [encLoopCalls, ih]

theorem decLoopCalls_length (K : Key) (m : Nat) :
    ∀ (offset : Block) (msg : List Byte), (decLoopCalls K m offset msg).length = m := by
  induction m with
  | zero => intros; rfl
  | succ m ih =>
    intro offset msg
    simp [decLoopCalls, ih]

end Sys2Proof.Machine
end

