-- ==== Sys2Proof/Laws/Operands.lean ====
section
/-! SUPPORT. What each payload layout function answers: for a payload that keeps its layout, the
fields, and for one that breaks it, `none`. -/

namespace Sys2Proof.Machine

theorem xorOperands_append {a b : List Byte} (h : a.length = b.length) :
    xorOperands (a ++ b) = some (a, b) := by
  have h₁ : (a ++ b).length = 2 * a.length := by
    rw [List.length_append]
    omega
  simp [xorOperands, h₁]

theorem xorOperands_odd {p : List Byte} (h : p.length % 2 = 1) : xorOperands p = none := by
  simp [xorOperands, h]

theorem xorOperands_some {p a b : List Byte} (h : xorOperands p = some (a, b)) :
    p = a ++ b ∧ a.length = b.length := by
  simp only [xorOperands] at h
  split at h
  · simp only [Option.some.injEq, Prod.mk.injEq] at h
    obtain ⟨rfl, rfl⟩ := h
    exact ⟨by simp, by simp; omega⟩
  · simp at h

@[simp] theorem blockOperand_toList (X : Block) : blockOperand X.toList = some X := by
  simp [blockOperand]

theorem blockOperand_none {p : List Byte} (h : p.length ≠ 16) : blockOperand p = none := by
  simp [blockOperand, h]

theorem ocbEncryptOperands_append {M : Nat} (K : Key) (N : Block) {Pt : List Byte}
    (h : Pt.length ≤ M) :
    ocbEncryptOperands M (K.toList ++ N.toList ++ Pt) = some (K, N, Pt) := by
  have h₁ : (K.toList ++ N.toList ++ Pt).length = 32 + Pt.length := by
    simp only [List.length_append, Vector.length_toList]
  rw [ocbEncryptOperands, if_pos (by omega)]
  simp [List.drop_append]

theorem ocbEncryptOperands_none {M : Nat} {p : List Byte}
    (h : p.length < 32 ∨ M < p.length - 32) : ocbEncryptOperands M p = none := by
  rw [ocbEncryptOperands, if_neg (by omega)]

theorem ocbDecryptOperands_append {M : Nat} (K : Key) (N : Block) (T : Tag) {Ct : List Byte}
    (h : Ct.length ≤ M) :
    ocbDecryptOperands M (K.toList ++ N.toList ++ T.toList ++ Ct) = some (K, N, T, Ct) := by
  have h₁ : (K.toList ++ N.toList ++ T.toList ++ Ct).length = 35 + Ct.length := by
    simp only [List.length_append, Vector.length_toList]
  have k₃₂ : List.drop 32 K.toList = [] := List.drop_eq_nil_of_le (by simp)
  have k₃₅ : List.drop 35 K.toList = [] := List.drop_eq_nil_of_le (by simp)
  have n₁₉ : List.drop 19 N.toList = [] := List.drop_eq_nil_of_le (by simp)
  rw [ocbDecryptOperands, if_pos (by omega)]
  simp [List.drop_append, k₃₂, k₃₅, n₁₉]

theorem ocbDecryptOperands_none {M : Nat} {p : List Byte}
    (h : p.length < 35 ∨ M < p.length - 35) : ocbDecryptOperands M p = none := by
  rw [ocbDecryptOperands, if_neg (by omega)]

/-- One field with its length byte before it is taken off whole. -/
theorem takeField_lengthPrefixed {k : List Byte} (rest : List Byte) (h : k.length ≤ 255) :
    takeField (lengthPrefixed k ++ rest) = some (k, rest) := by
  have h₁ : (BitVec.ofNat 8 k.length).toNat = k.length := by
    simp only [BitVec.toNat_ofNat]
    omega
  simp only [lengthPrefixed, takeField, List.cons_append, h₁]
  simp

theorem takeField_some {p k rest : List Byte} (h : takeField p = some (k, rest)) :
    k.length ≤ 255 ∧ p = lengthPrefixed k ++ rest := by
  cases p with
  | nil => simp [takeField] at h
  | cons n q =>
    simp only [takeField] at h
    split at h
    · simp only [Option.some.injEq, Prod.mk.injEq] at h
      obtain ⟨rfl, rfl⟩ := h
      have := n.isLt
      have hl : (q.take n.toNat).length = n.toNat := by
        rw [List.length_take]
        omega
      exact ⟨by omega, by simp [lengthPrefixed, hl]⟩
    · simp at h

theorem setKeyOperands_append {k e d : List Byte} (hk : k.length ≤ 255) (he : e.length ≤ 255)
    (hd : d.length ≤ 255) :
    setKeyOperands (lengthPrefixed k ++ lengthPrefixed e ++ lengthPrefixed d) =
      some (k, e, d) := by
  have h₃ := takeField_lengthPrefixed [] hd
  rw [List.append_nil] at h₃
  simp only [setKeyOperands, List.append_assoc, takeField_lengthPrefixed _ hk,
    takeField_lengthPrefixed _ he, h₃, if_true]

/-- Everything a SET_KEY payload with a good layout is. -/
theorem setKeyOperands_some {p k e d : List Byte} (h : setKeyOperands p = some (k, e, d)) :
    k.length ≤ 255 ∧ e.length ≤ 255 ∧ d.length ≤ 255 ∧
      p = lengthPrefixed k ++ lengthPrefixed e ++ lengthPrefixed d := by
  simp only [setKeyOperands] at h
  split at h
  · simp at h
  · rename_i h₁
    split at h
    · simp at h
    · rename_i h₂
      split at h
      · simp at h
      · rename_i h₃
        split at h
        · rename_i hp
          simp only [Option.some.injEq, Prod.mk.injEq] at h
          obtain ⟨rfl, rfl, rfl⟩ := h
          obtain ⟨a₁, rfl⟩ := takeField_some h₁
          obtain ⟨a₂, rfl⟩ := takeField_some h₂
          obtain ⟨a₃, rfl⟩ := takeField_some h₃
          subst hp
          exact ⟨a₁, a₂, a₃, by simp⟩
        · simp at h

theorem byteOperand_none {p : List Byte} (h : p.length ≠ 1) : byteOperand p = none := by
  match p, h with
  | [], _ => rfl
  | [_], h => simp at h
  | _ :: _ :: _, _ => rfl

theorem wireOperand_cons {M : Nat} (h t₀ t₁ t₂ : Byte) {ct : List Byte} (hl : ct.length ≤ M) :
    wireOperand M (h :: t₀ :: t₁ :: t₂ :: ct) = some ⟨h, tagOf [t₀, t₁, t₂], ct⟩ := by
  simp [wireOperand, hl]

theorem wireOperand_none {M : Nat} {w : List Byte} (hl : w.length < 4 ∨ M < w.length - 4) :
    wireOperand M w = none := by
  match w, hl with
  | [], _ => rfl
  | [_], _ => rfl
  | [_, _], _ => rfl
  | [_, _, _], _ => rfl
  | _ :: _ :: _ :: _ :: ct, hl =>
    simp only [List.length_cons] at hl
    simp only [wireOperand]
    rw [if_neg (by omega)]

end Sys2Proof.Machine
end

