-- ==== Sys2Proof/Laws/State.lean ====
section
/-! SUPPORT. One lemma for each field of State under each update, so that no later proof unfolds a
record update. -/

namespace Sys2Proof.Machine

@[simp] theorem complete_eq_respond (info : Byte) (p : List Byte) (s : State) :
    complete info p s = respond ⟨.ok, info, p⟩ s := rfl

@[simp] theorem raise_eq_respond (e : Status) (s : State) :
    raise e s = respond ⟨e, noInfo, []⟩ s := rfl

/-! ### respond -/

@[simp] theorem respond_keyValid (r : Response) (s : State) :
    (respond r s).keyValid = s.keyValid := rfl

@[simp] theorem respond_key (r : Response) (s : State) :
    (respond r s).key = s.key := rfl

@[simp] theorem respond_eiv (r : Response) (s : State) :
    (respond r s).eiv = s.eiv := rfl

@[simp] theorem respond_div (r : Response) (s : State) :
    (respond r s).div = s.div := rfl

@[simp] theorem respond_hist (r : Response) (s : State) :
    (respond r s).hist = s.hist := rfl

@[simp] theorem respond_good (r : Response) (s : State) :
    (respond r s).good = s.good := rfl

@[simp] theorem respond_late (r : Response) (s : State) :
    (respond r s).late = s.late := rfl

@[simp] theorem respond_lost (r : Response) (s : State) :
    (respond r s).lost = s.lost := rfl

@[simp] theorem respond_resync (r : Response) (s : State) :
    (respond r s).resync = s.resync := rfl

@[simp] theorem respond_inbox (r : Response) (s : State) :
    (respond r s).inbox = s.inbox := rfl

@[simp] theorem respond_outbox (r : Response) (s : State) :
    (respond r s).outbox = s.outbox ++ [r] := rfl

@[simp] theorem respond_rng (r : Response) (s : State) :
    (respond r s).rng = s.rng := rfl

@[simp] theorem respond_rngCalls (r : Response) (s : State) :
    (respond r s).rngCalls = s.rngCalls := rfl

/-! ### install -/

@[simp] theorem install_keyValid (k : Key) (e d : Counter) (s : State) :
    (install k e d s).keyValid = true := rfl

@[simp] theorem install_key (k : Key) (e d : Counter) (s : State) :
    (install k e d s).key = k := rfl

@[simp] theorem install_eiv (k : Key) (e d : Counter) (s : State) :
    (install k e d s).eiv = e := rfl

@[simp] theorem install_div (k : Key) (e d : Counter) (s : State) :
    (install k e d s).div = d := rfl

@[simp] theorem install_hist (k : Key) (e d : Counter) (s : State) :
    (install k e d s).hist = emptyHist := rfl

@[simp] theorem install_good (k : Key) (e d : Counter) (s : State) :
    (install k e d s).good = s.good := rfl

@[simp] theorem install_late (k : Key) (e d : Counter) (s : State) :
    (install k e d s).late = s.late := rfl

@[simp] theorem install_lost (k : Key) (e d : Counter) (s : State) :
    (install k e d s).lost = s.lost := rfl

@[simp] theorem install_resync (k : Key) (e d : Counter) (s : State) :
    (install k e d s).resync = s.resync := rfl

@[simp] theorem install_inbox (k : Key) (e d : Counter) (s : State) :
    (install k e d s).inbox = s.inbox := rfl

@[simp] theorem install_outbox (k : Key) (e d : Counter) (s : State) :
    (install k e d s).outbox = s.outbox := rfl

@[simp] theorem install_rng (k : Key) (e d : Counter) (s : State) :
    (install k e d s).rng = s.rng := rfl

@[simp] theorem install_rngCalls (k : Key) (e d : Counter) (s : State) :
    (install k e d s).rngCalls = s.rngCalls := rfl

/-! ### rngTaken -/

@[simp] theorem rngTaken_keyValid (s : State) :
    (rngTaken s).keyValid = s.keyValid := rfl

@[simp] theorem rngTaken_key (s : State) :
    (rngTaken s).key = s.key := rfl

@[simp] theorem rngTaken_eiv (s : State) :
    (rngTaken s).eiv = s.eiv := rfl

@[simp] theorem rngTaken_div (s : State) :
    (rngTaken s).div = s.div := rfl

@[simp] theorem rngTaken_hist (s : State) :
    (rngTaken s).hist = s.hist := rfl

@[simp] theorem rngTaken_good (s : State) :
    (rngTaken s).good = s.good := rfl

@[simp] theorem rngTaken_late (s : State) :
    (rngTaken s).late = s.late := rfl

@[simp] theorem rngTaken_lost (s : State) :
    (rngTaken s).lost = s.lost := rfl

@[simp] theorem rngTaken_resync (s : State) :
    (rngTaken s).resync = s.resync := rfl

@[simp] theorem rngTaken_inbox (s : State) :
    (rngTaken s).inbox = s.inbox := rfl

@[simp] theorem rngTaken_outbox (s : State) :
    (rngTaken s).outbox = s.outbox := rfl

@[simp] theorem rngTaken_rng (s : State) :
    (rngTaken s).rng = s.rng.tail := rfl

@[simp] theorem rngTaken_rngCalls (s : State) :
    (rngTaken s).rngCalls = s.rngCalls + 1 := rfl

/-! ### histMark -/

@[simp] theorem histMark_keyValid (c : Counter) (s : State) :
    (histMark c s).keyValid = s.keyValid := rfl

@[simp] theorem histMark_key (c : Counter) (s : State) :
    (histMark c s).key = s.key := rfl

@[simp] theorem histMark_eiv (c : Counter) (s : State) :
    (histMark c s).eiv = s.eiv := rfl

@[simp] theorem histMark_div (c : Counter) (s : State) :
    (histMark c s).div = s.div := rfl

@[simp] theorem histMark_hist (c : Counter) (s : State) :
    (histMark c s).hist = s.hist.set (slotOf c) (some c) := rfl

@[simp] theorem histMark_good (c : Counter) (s : State) :
    (histMark c s).good = s.good := rfl

@[simp] theorem histMark_late (c : Counter) (s : State) :
    (histMark c s).late = s.late := rfl

@[simp] theorem histMark_lost (c : Counter) (s : State) :
    (histMark c s).lost = s.lost := rfl

@[simp] theorem histMark_resync (c : Counter) (s : State) :
    (histMark c s).resync = s.resync := rfl

@[simp] theorem histMark_inbox (c : Counter) (s : State) :
    (histMark c s).inbox = s.inbox := rfl

@[simp] theorem histMark_outbox (c : Counter) (s : State) :
    (histMark c s).outbox = s.outbox := rfl

@[simp] theorem histMark_rng (c : Counter) (s : State) :
    (histMark c s).rng = s.rng := rfl

@[simp] theorem histMark_rngCalls (c : Counter) (s : State) :
    (histMark c s).rngCalls = s.rngCalls := rfl

/-! ### ivCommit -/

@[simp] theorem ivCommit_keyValid (c : Counter) (k : PacketClass) (s : State) :
    (ivCommit c k s).keyValid = s.keyValid := by cases k <;> rfl

@[simp] theorem ivCommit_key (c : Counter) (k : PacketClass) (s : State) :
    (ivCommit c k s).key = s.key := by cases k <;> rfl

@[simp] theorem ivCommit_eiv (c : Counter) (k : PacketClass) (s : State) :
    (ivCommit c k s).eiv = s.eiv := by cases k <;> rfl

@[simp] theorem ivCommit_div (c : Counter) (k : PacketClass) (s : State) :
    (ivCommit c k s).div = if k = .late then s.div else c := by cases k <;> rfl

@[simp] theorem ivCommit_hist (c : Counter) (k : PacketClass) (s : State) :
    (ivCommit c k s).hist = s.hist := by cases k <;> rfl

@[simp] theorem ivCommit_good (c : Counter) (k : PacketClass) (s : State) :
    (ivCommit c k s).good = s.good := by cases k <;> rfl

@[simp] theorem ivCommit_late (c : Counter) (k : PacketClass) (s : State) :
    (ivCommit c k s).late = s.late := by cases k <;> rfl

@[simp] theorem ivCommit_lost (c : Counter) (k : PacketClass) (s : State) :
    (ivCommit c k s).lost = s.lost := by cases k <;> rfl

@[simp] theorem ivCommit_resync (c : Counter) (k : PacketClass) (s : State) :
    (ivCommit c k s).resync = s.resync := by cases k <;> rfl

@[simp] theorem ivCommit_inbox (c : Counter) (k : PacketClass) (s : State) :
    (ivCommit c k s).inbox = s.inbox := by cases k <;> rfl

@[simp] theorem ivCommit_outbox (c : Counter) (k : PacketClass) (s : State) :
    (ivCommit c k s).outbox = s.outbox := by cases k <;> rfl

@[simp] theorem ivCommit_rng (c : Counter) (k : PacketClass) (s : State) :
    (ivCommit c k s).rng = s.rng := by cases k <;> rfl

@[simp] theorem ivCommit_rngCalls (c : Counter) (k : PacketClass) (s : State) :
    (ivCommit c k s).rngCalls = s.rngCalls := by cases k <;> rfl

/-! ### countAccepted -/

@[simp] theorem countAccepted_keyValid (z : Int) (k : PacketClass) (s : State) :
    (countAccepted z k s).keyValid = s.keyValid := by cases k <;> rfl

@[simp] theorem countAccepted_key (z : Int) (k : PacketClass) (s : State) :
    (countAccepted z k s).key = s.key := by cases k <;> rfl

@[simp] theorem countAccepted_eiv (z : Int) (k : PacketClass) (s : State) :
    (countAccepted z k s).eiv = s.eiv := by cases k <;> rfl

@[simp] theorem countAccepted_div (z : Int) (k : PacketClass) (s : State) :
    (countAccepted z k s).div = s.div := by cases k <;> rfl

@[simp] theorem countAccepted_hist (z : Int) (k : PacketClass) (s : State) :
    (countAccepted z k s).hist = s.hist := by cases k <;> rfl

@[simp] theorem countAccepted_good (z : Int) (k : PacketClass) (s : State) :
    (countAccepted z k s).good = s.good + 1 := by cases k <;> rfl

@[simp] theorem countAccepted_late (z : Int) (k : PacketClass) (s : State) :
    (countAccepted z k s).late = if k = .late then s.late + 1 else s.late := by cases k <;> rfl

@[simp] theorem countAccepted_lost (z : Int) (k : PacketClass) (s : State) :
    (countAccepted z k s).lost = if k = .late then lostCorrected s.lost
      else if k = .good then s.lost else s.lost + BitVec.ofInt 32 (z - 1) := by cases k <;> rfl

@[simp] theorem countAccepted_resync (z : Int) (k : PacketClass) (s : State) :
    (countAccepted z k s).resync = if k = .resync then s.resync + 1 else s.resync := by cases k <;> rfl

@[simp] theorem countAccepted_inbox (z : Int) (k : PacketClass) (s : State) :
    (countAccepted z k s).inbox = s.inbox := by cases k <;> rfl

@[simp] theorem countAccepted_outbox (z : Int) (k : PacketClass) (s : State) :
    (countAccepted z k s).outbox = s.outbox := by cases k <;> rfl

@[simp] theorem countAccepted_rng (z : Int) (k : PacketClass) (s : State) :
    (countAccepted z k s).rng = s.rng := by cases k <;> rfl

@[simp] theorem countAccepted_rngCalls (z : Int) (k : PacketClass) (s : State) :
    (countAccepted z k s).rngCalls = s.rngCalls := by cases k <;> rfl

/-! ### resetBlock -/

@[simp] theorem resetBlock_keyValid (s : State) :
    (resetBlock s).keyValid = false := rfl

@[simp] theorem resetBlock_key (s : State) :
    (resetBlock s).key = State.reset.key := rfl

@[simp] theorem resetBlock_eiv (s : State) :
    (resetBlock s).eiv = 0 := rfl

@[simp] theorem resetBlock_div (s : State) :
    (resetBlock s).div = 0 := rfl

@[simp] theorem resetBlock_hist (s : State) :
    (resetBlock s).hist = emptyHist := rfl

@[simp] theorem resetBlock_good (s : State) :
    (resetBlock s).good = 0 := rfl

@[simp] theorem resetBlock_late (s : State) :
    (resetBlock s).late = 0 := rfl

@[simp] theorem resetBlock_lost (s : State) :
    (resetBlock s).lost = 0 := rfl

@[simp] theorem resetBlock_resync (s : State) :
    (resetBlock s).resync = 0 := rfl

@[simp] theorem resetBlock_inbox (s : State) :
    (resetBlock s).inbox = s.inbox := rfl

@[simp] theorem resetBlock_outbox (s : State) :
    (resetBlock s).outbox = s.outbox := rfl

@[simp] theorem resetBlock_rng (s : State) :
    (resetBlock s).rng = s.rng := rfl

@[simp] theorem resetBlock_rngCalls (s : State) :
    (resetBlock s).rngCalls = s.rngCalls := rfl

/-! ### accepted -/

@[simp] theorem accepted_keyValid (s : State) :
    (accepted s).keyValid = s.keyValid := rfl

@[simp] theorem accepted_key (s : State) :
    (accepted s).key = s.key := rfl

@[simp] theorem accepted_eiv (s : State) :
    (accepted s).eiv = s.eiv := rfl

@[simp] theorem accepted_div (s : State) :
    (accepted s).div = s.div := rfl

@[simp] theorem accepted_hist (s : State) :
    (accepted s).hist = s.hist := rfl

@[simp] theorem accepted_good (s : State) :
    (accepted s).good = s.good := rfl

@[simp] theorem accepted_late (s : State) :
    (accepted s).late = s.late := rfl

@[simp] theorem accepted_lost (s : State) :
    (accepted s).lost = s.lost := rfl

@[simp] theorem accepted_resync (s : State) :
    (accepted s).resync = s.resync := rfl

@[simp] theorem accepted_inbox (s : State) :
    (accepted s).inbox = s.inbox.tail := rfl

@[simp] theorem accepted_outbox (s : State) :
    (accepted s).outbox = s.outbox := rfl

@[simp] theorem accepted_rng (s : State) :
    (accepted s).rng = s.rng := rfl

@[simp] theorem accepted_rngCalls (s : State) :
    (accepted s).rngCalls = s.rngCalls := rfl

/-! ### deliverNext -/

@[simp] theorem deliverNext_keyValid (x : HostInput) (s : State) :
    (deliverNext x s).keyValid = s.keyValid := rfl

@[simp] theorem deliverNext_key (x : HostInput) (s : State) :
    (deliverNext x s).key = s.key := rfl

@[simp] theorem deliverNext_eiv (x : HostInput) (s : State) :
    (deliverNext x s).eiv = s.eiv := rfl

@[simp] theorem deliverNext_div (x : HostInput) (s : State) :
    (deliverNext x s).div = s.div := rfl

@[simp] theorem deliverNext_hist (x : HostInput) (s : State) :
    (deliverNext x s).hist = s.hist := rfl

@[simp] theorem deliverNext_good (x : HostInput) (s : State) :
    (deliverNext x s).good = s.good := rfl

@[simp] theorem deliverNext_late (x : HostInput) (s : State) :
    (deliverNext x s).late = s.late := rfl

@[simp] theorem deliverNext_lost (x : HostInput) (s : State) :
    (deliverNext x s).lost = s.lost := rfl

@[simp] theorem deliverNext_resync (x : HostInput) (s : State) :
    (deliverNext x s).resync = s.resync := rfl

@[simp] theorem deliverNext_inbox (x : HostInput) (s : State) :
    (deliverNext x s).inbox = x :: s.inbox := rfl

@[simp] theorem deliverNext_outbox (x : HostInput) (s : State) :
    (deliverNext x s).outbox = s.outbox := rfl

@[simp] theorem deliverNext_rng (x : HostInput) (s : State) :
    (deliverNext x s).rng = s.rng := rfl

@[simp] theorem deliverNext_rngCalls (x : HostInput) (s : State) :
    (deliverNext x s).rngCalls = s.rngCalls := rfl

end Sys2Proof.Machine
end

