-- ==== Sys2Proof/Laws/Ops.lean ====
section
/-! SUPPORT. One lemma for each shared operation on the state that says everything it can do. -/

namespace Sys2Proof.Machine

/-- `exec` is a command's effect at the machine's own parameters, and always a next state. -/
theorem exec_eq_perform (i : Instr) (s : State) :
    exec i s = .next (perform Config.params i s) := by
  cases i <;> rfl

theorem perform_of_exec {i : Instr} {s t : State} (h : exec i s = .next t) :
    perform Config.params i s = t := by
  rw [exec_eq_perform] at h
  injection h

/-! ### Responses -/

theorem respond_eq_answering (r : Response) (s : State) : respond r s = s.answering r := rfl

theorem raise_eq_raising (e : Status) (s : State) : raise e s = s.raising e := rfl

theorem complete_eq_answering (info : Byte) (p : List Byte) (s : State) :
    complete info p s = s.answering ⟨.ok, info, p⟩ := rfl

@[simp] theorem answering_keyValid (s : State) (r : Response) :
    (s.answering r).keyValid = s.keyValid := rfl

@[simp] theorem answering_key (s : State) (r : Response) : (s.answering r).key = s.key := rfl

@[simp] theorem answering_eiv (s : State) (r : Response) : (s.answering r).eiv = s.eiv := rfl

@[simp] theorem answering_div (s : State) (r : Response) : (s.answering r).div = s.div := rfl

@[simp] theorem answering_hist (s : State) (r : Response) : (s.answering r).hist = s.hist := rfl

@[simp] theorem answering_good (s : State) (r : Response) : (s.answering r).good = s.good := rfl

@[simp] theorem answering_late (s : State) (r : Response) : (s.answering r).late = s.late := rfl

@[simp] theorem answering_lost (s : State) (r : Response) : (s.answering r).lost = s.lost := rfl

@[simp] theorem answering_resync (s : State) (r : Response) :
    (s.answering r).resync = s.resync := rfl

@[simp] theorem answering_inbox (s : State) (r : Response) :
    (s.answering r).inbox = s.inbox := rfl

@[simp] theorem answering_outbox (s : State) (r : Response) :
    (s.answering r).outbox = s.outbox ++ [r] := rfl

@[simp] theorem answering_rng (s : State) (r : Response) : (s.answering r).rng = s.rng := rfl

@[simp] theorem answering_rngCalls (s : State) (r : Response) :
    (s.answering r).rngCalls = s.rngCalls := rfl

/-- The one response a command gave is the one it is said to have given. -/
theorem response_unique {s s' : State} {r r' : Response} (hs : s'.outbox = s.outbox)
    (h : (s'.answering r').outbox = s.outbox ++ [r]) : r = r' := by
  rw [answering_outbox, hs] at h
  simpa using h.symm

/-! ### HIST -/

theorem slotOf_val (c : Counter) : (slotOf c).val = c.toNat % 256 := low_toNat c

theorem histAt_eq (s : State) (c : Counter) :
    histAt s c = s.hist[c.toNat % 256]'(Nat.mod_lt _ (by decide)) := by
  have := slotOf_val c
  simp only [histAt, Fin.getElem_fin, this]

theorem seen_iff (s : State) (c : Counter) :
    seen s c = true ↔ s.hist[c.toNat % 256]'(Nat.mod_lt _ (by decide)) = some c := by
  rw [seen, histAt_eq]
  simp

/-- What is seen once `c` has been written: `c` in its own slot, and every other slot as before. -/
theorem seen_of_hist_set {s t : State} (c c' : Counter)
    (h : t.hist = s.hist.set (slotOf c) (some c)) :
    seen t c' = if slotOf c = slotOf c' then decide (c = c') else seen s c' := by
  simp only [seen, histAt, h, Fin.getElem_fin, Vector.getElem_set]
  by_cases hc : slotOf c = slotOf c'
  · rw [if_pos (by rw [hc]), if_pos hc]
    simp [Bool.beq_eq_decide_eq]
  · rw [if_neg (fun h => hc (Fin.ext h)), if_neg hc]

/-! ### The random source -/

/-- NEW's two ends: nothing installed, or some key and counters installed whole. -/
theorem newWithAnswer_cases (answer : Option Draw) (s : State) :
    newWithAnswer answer s = s.raising .randomnessUnavailable ∨
      ∃ (K : Key) (e d : Counter),
        newWithAnswer answer s = (install K e d s).answering ⟨.ok, 0x00, []⟩ := by
  cases answer with
  | none => exact .inl rfl
  | some R => exact .inr ⟨_, _, _, rfl⟩

/-! ### ReplayWindow -/

/-- The forward distance by numbers. -/
theorem forwardDistance_eq (d : Counter) (h : Byte) :
    forwardDistance d h = (h.toNat + 256 - d.toNat % 256) % 256 := by
  rw [forwardDistance, BitVec.toNat_sub, low_toNat]
  omega

/-- Everything a replay decision can be. -/
theorem rwDecide_cases (P : Params) (s : State) (w : WirePacket) :
    let c := candidate P.window s.div w.header
    let dist := candidateDistance P.window s.div w.header
    let k := classOf P.window dist
    (seen s c = true ∧ rwDecide P s w = .reject .replay) ∨
    (seen s c = false ∧ ocbVerify P.port s.key (le16 c) w.tag w.ciphertext = none ∧
      rwDecide P s w = .reject (if k = .resync then .outOfWindow else .authenticationFailure)) ∨
    (∃ pt, seen s c = false ∧ ocbVerify P.port s.key (le16 c) w.tag w.ciphertext = some pt ∧
      rwDecide P s w = .accept c dist k pt) := by
  simp only [rwDecide]
  cases seen s (candidate P.window s.div w.header)
  · right
    cases ocbVerify P.port s.key (le16 (candidate P.window s.div w.header)) w.tag w.ciphertext with
    | none => left; simp
    | some pt => right; exact ⟨pt, by simp⟩
  · left; simp

theorem applyAccept_frame (c : Counter) (dist : Int) (k : PacketClass) (s : State) :
    (applyAccept c dist k s).keyValid = s.keyValid ∧ (applyAccept c dist k s).key = s.key ∧
      (applyAccept c dist k s).eiv = s.eiv ∧ (applyAccept c dist k s).inbox = s.inbox ∧
      (applyAccept c dist k s).outbox = s.outbox ∧ (applyAccept c dist k s).rng = s.rng ∧
      (applyAccept c dist k s).rngCalls = s.rngCalls := by
  cases k <;> exact ⟨rfl, rfl, rfl, rfl, rfl, rfl, rfl⟩

/-- The HIST slot that an acceptance writes. -/
theorem applyAccept_hist (c : Counter) (dist : Int) (k : PacketClass) (s : State) :
    (applyAccept c dist k s).hist = s.hist.set (slotOf c) (some c) := by
  cases k <;> rfl

theorem applyAccept_div (c : Counter) (dist : Int) (k : PacketClass) (s : State) :
    (applyAccept c dist k s).div = if k = .late then s.div else c := by
  cases k <;> rfl

theorem applyAccept_good (c : Counter) (dist : Int) (k : PacketClass) (s : State) :
    (applyAccept c dist k s).good = s.good + 1 := by
  cases k <;> rfl

theorem applyAccept_late (c : Counter) (dist : Int) (k : PacketClass) (s : State) :
    (applyAccept c dist k s).late = if k = .late then s.late + 1 else s.late := by
  cases k <;> rfl

theorem applyAccept_lost (c : Counter) (dist : Int) (k : PacketClass) (s : State) :
    (applyAccept c dist k s).lost =
      if k = .late then lostCorrected s.lost
      else if k = .good then s.lost else s.lost + BitVec.ofInt 32 (dist - 1) := by
  cases k <;> rfl

theorem applyAccept_resync (c : Counter) (dist : Int) (k : PacketClass) (s : State) :
    (applyAccept c dist k s).resync = if k = .resync then s.resync + 1 else s.resync := by
  cases k <;> rfl

end Sys2Proof.Machine
end

