-- ==== Sys2Proof/Laws/Commands.lean ====
section
/-! SUPPORT. What a command can do, said once: the inversion lemmas from which statements about
every command follow. -/

namespace Sys2Proof.Machine

/-- Everything a command that installs no key can do: raise, answer without writing, move EIV by one
(ENCRYPT), or accept a packet (DECRYPT). -/
theorem perform_cases (i : Instr) (s : State) (hi : installs i = false) :
    (∃ e : Status, e ≠ .ok ∧ perform Config.params i s = s.raising e) ∨
    (∃ (b : Byte) (y : List Byte), b.toNat ≤ 3 ∧
      (∀ p, i ≠ .encrypt p) ∧ (∀ p, i ≠ .decrypt p) ∧
      perform Config.params i s = s.answering ⟨.ok, b, y⟩) ∨
    (∃ p : List Byte, i = .encrypt p ∧ s.keyValid = true ∧ p.length ≤ Config.maxPlain ∧
      perform Config.params i s = State.answering { s with eiv := s.eiv + 1 }
        ⟨.ok, 0x00, sealPacket Config.port s.key (s.eiv + 1) p⟩) ∨
    (∃ (h t₀ t₁ t₂ : Byte) (ct pt : List Byte) (c : Counter) (dist : Int) (k : PacketClass),
      i = .decrypt (h :: t₀ :: t₁ :: t₂ :: ct) ∧ ct.length ≤ Config.maxPlain ∧
      s.keyValid = true ∧ c = candidate Config.window s.div h ∧
      dist = candidateDistance Config.window s.div h ∧ k = classOf Config.window dist ∧
      seen s c = false ∧
      ocbVerify Config.port s.key (le16 c) (tagOf [t₀, t₁, t₂]) ct = some pt ∧
      perform Config.params i s =
        State.answering (applyAccept c dist k s) ⟨.ok, classCode k, pt⟩) := by
  cases i with
  | gfZero p => exact .inr (.inl ⟨noInfo, _, by simp [noInfo], by simp, by simp, rfl⟩)
  | gfXor p =>
    simp only [perform, gfXorCommand]
    split
    · exact .inr (.inl ⟨noInfo, _, by simp [noInfo], by simp, by simp, rfl⟩)
    · exact .inl ⟨.illegalCommand, by simp, rfl⟩
  | gfDouble p =>
    simp only [perform, gfDoubleCommand]
    split
    · exact .inr (.inl ⟨noInfo, _, by simp [noInfo], by simp, by simp, rfl⟩)
    · exact .inl ⟨.illegalCommand, by simp, rfl⟩
  | gfTriple p =>
    simp only [perform, gfTripleCommand]
    split
    · exact .inr (.inl ⟨noInfo, _, by simp [noInfo], by simp, by simp, rfl⟩)
    · exact .inl ⟨.illegalCommand, by simp, rfl⟩
  | ocbEncrypt p =>
    simp only [perform, ocbEncryptCommand]
    split
    · exact .inr (.inl ⟨noInfo, _, by simp [noInfo], by simp, by simp, rfl⟩)
    · exact .inl ⟨.illegalCommand, by simp, rfl⟩
  | ocbDecrypt p =>
    simp only [perform, ocbDecryptCommand]
    split
    · split
      · exact .inr (.inl ⟨noInfo, _, by simp [noInfo], by simp, by simp, rfl⟩)
      · exact .inl ⟨.authenticationFailure, by simp, rfl⟩
    · exact .inl ⟨.illegalCommand, by simp, rfl⟩
  | setKey p => simp [installs] at hi
  | new p => simp [installs] at hi
  | encrypt p =>
    simp only [perform, encryptCommand]
    split
    · rename_i hl
      split
      · rename_i hk
        exact .inr (.inr (.inl ⟨p, rfl, hk, hl, rfl⟩))
      · exact .inl ⟨.notKeyed, by simp, rfl⟩
    · exact .inl ⟨.illegalCommand, by simp, rfl⟩
  | decrypt p =>
    simp only [perform, decryptCommand]
    split
    · rename_i hk
      match p with
      | [] => exact .inl ⟨.malformedPacket, by simp, rfl⟩
      | [_] => exact .inl ⟨.malformedPacket, by simp, rfl⟩
      | [_, _] => exact .inl ⟨.malformedPacket, by simp, rfl⟩
      | [_, _, _] => exact .inl ⟨.malformedPacket, by simp, rfl⟩
      | h :: t₀ :: t₁ :: t₂ :: ct =>
        by_cases hl : ct.length ≤ Config.params.maxPlain
        · rw [wireOperand_cons _ _ _ _ hl]
          simp only
          rcases rwDecide_cases Config.params s ⟨h, tagOf [t₀, t₁, t₂], ct⟩ with
            ⟨_, hd⟩ | ⟨_, _, hd⟩ | ⟨pt, hs, hv, hd⟩
          · rw [hd]
            exact .inl ⟨.replay, by simp, rfl⟩
          · rw [hd]
            exact .inl ⟨_, by split <;> simp, rfl⟩
          · rw [hd]
            exact .inr (.inr (.inr
              ⟨h, t₀, t₁, t₂, ct, pt, _, _, _, rfl, hl, hk, rfl, rfl, rfl, hs, hv, rfl⟩))
        · rw [wireOperand_none (.inr (by simp only [List.length_cons]; omega))]
          exact .inl ⟨.malformedPacket, by simp, rfl⟩
    · exact .inl ⟨.notKeyed, by simp, rfl⟩
  | rwProbe p =>
    simp only [perform, rwProbeCommand]
    split
    · exact .inl ⟨.illegalCommand, by simp, rfl⟩
    · split
      · refine .inr (.inl ⟨_, _, ?_, by simp, by simp, rfl⟩)
        generalize classOf _ _ = k
        cases k <;> simp [classCode]
      · exact .inl ⟨.notKeyed, by simp, rfl⟩
  | readReg p =>
    simp only [perform, readRegCommand]
    split
    · exact .inl ⟨.illegalCommand, by simp, rfl⟩
    · split
      · exact .inl ⟨.illegalCommand, by simp, rfl⟩
      · rename_i r _
        cases r <;> simp only [readRegister]
        case key => exact .inl ⟨.illegalCommand, by simp, rfl⟩
        case eiv =>
          split
          · exact .inr (.inl ⟨noInfo, _, by simp [noInfo], by simp, by simp, rfl⟩)
          · exact .inl ⟨.notKeyed, by simp, rfl⟩
        case div =>
          split
          · exact .inr (.inl ⟨noInfo, _, by simp [noInfo], by simp, by simp, rfl⟩)
          · exact .inl ⟨.notKeyed, by simp, rfl⟩
        all_goals exact .inr (.inl ⟨noInfo, _, by simp [noInfo], by simp, by simp, rfl⟩)

/-- Everything a command that installs a key can do: raise, or install and answer OK; NEW takes an
answer of the random source first, unless it has a payload. -/
theorem perform_install_cases (i : Instr) (s : State) (hi : installs i = true) :
    ∃ s' : State, (s' = s ∨ i = .new [] ∧ s' = rngTaken s) ∧
      ((∃ e : Status, e ≠ .ok ∧ perform Config.params i s = s'.raising e) ∨
       (∃ (K : Key) (e d : Counter),
          perform Config.params i s = (install K e d s').answering ⟨.ok, 0x00, []⟩)) := by
  cases i <;> simp only [installs, Bool.false_eq_true] at hi
  case setKey p =>
    refine ⟨s, .inl rfl, ?_⟩
    simp only [perform, setKeyCommand]
    split
    · exact .inl ⟨.illegalCommand, by simp, rfl⟩
    · split
      · exact .inl ⟨.invalidKeyLength, by simp, rfl⟩
      · split
        · exact .inl ⟨.invalidIVLength, by simp, rfl⟩
        · exact .inr ⟨_, _, _, rfl⟩
  case new p =>
    cases p with
    | cons => exact ⟨s, .inl rfl, .inl ⟨.illegalCommand, by simp, rfl⟩⟩
    | nil =>
      refine ⟨rngTaken s, .inr ⟨rfl, rfl⟩, ?_⟩
      rcases newWithAnswer_cases (rngFill s) (rngTaken s) with h | ⟨K, e, d, h⟩
      · exact .inl ⟨_, by simp, h⟩
      · exact .inr ⟨K, e, d, h⟩

end Sys2Proof.Machine
end

