-- ==== Sys2Proof/Laws/Decode.lean ====
section
/-! SUPPORT. What the decoder and its parts answer. -/

namespace Sys2Proof

open Sys2Proof.Machine

/-- PLEN carries every length up to 65535. -/
theorem plen_le2 {n : Nat} (h : n ≤ 65535) :
    plen (BitVec.ofNat 8 n) (BitVec.ofNat 8 (n / 256)) = n := by
  simp only [plen, BitVec.toNat_ofNat]
  omega

theorem plen_le (lo hi : Byte) : plen lo hi ≤ 65535 := by
  have := lo.isLt
  have := hi.isLt
  simp only [plen]
  omega

theorem le2_plen (lo hi : Byte) : le2 (plen lo hi) = [lo, hi] := by
  have := lo.isLt
  have := hi.isLt
  simp only [le2, plen, List.cons.injEq, and_true]
  constructor <;> apply BitVec.eq_of_toNat_eq <;> simp only [BitVec.toNat_ofNat] <;> omega

theorem commandOf_opcodeOf (i : Instr) : commandOf (opcodeOf i) i.payload = some i := by
  cases i <;> rfl

theorem commandOf_some {opc : Byte} {p : List Byte} {i : Instr} (h : commandOf opc p = some i) :
    opcodeOf i = opc ∧ i.payload = p := by
  unfold commandOf at h
  split at h <;> first | (simp at h; done) | skip
  all_goals
    rename_i hn
    injection h with h
    subst h
    exact ⟨BitVec.eq_of_toNat_eq hn.symm, rfl⟩

/-- An OPC maps to no command exactly when it is not listed. -/
theorem commandOf_eq_none {opc : Byte} {p : List Byte} :
    commandOf opc p = none ↔ opc ∉ listedOpcodes := by
  constructor
  · intro h hm
    simp only [listedOpcodes, List.mem_cons, List.not_mem_nil, or_false] at hm
    rcases hm with rfl | rfl | rfl | rfl | rfl | rfl | rfl | rfl | rfl | rfl | rfl | rfl <;>
      simp [commandOf] at h
  · intro h
    cases hc : commandOf opc p with
    | none => rfl
    | some i =>
      obtain ⟨rfl, _⟩ := commandOf_some hc
      exact absurd (by cases i <;> simp [opcodeOf, listedOpcodes]) h

/-- What a frame whose length agrees with its PLEN decodes to. -/
theorem decode_whole {opc lo hi : Byte} {p : List Byte} (h : p.length = plen lo hi) :
    decode (opc :: lo :: hi :: p) =
      match commandOf opc p with
      | some i => .ok i
      | none => .error (.reservedOpcode opc) := by
  cases hc : commandOf opc p <;> simp only [decode, h, lt_irrefl, if_false, hc]

/-- Everything an accepted frame is. -/
theorem decode_ok {bytes : List Byte} {i : Instr} (h : decode bytes = .ok i) :
    ∃ (opc lo hi : Byte) (p : List Byte), bytes = opc :: lo :: hi :: p ∧
      p.length = plen lo hi ∧ commandOf opc p = some i := by
  match bytes, h with
  | opc :: lo :: hi :: p, h =>
    refine ⟨opc, lo, hi, p, rfl, ?_⟩
    simp only [decode] at h
    split at h
    · simp at h
    · split at h
      · simp at h
      · split at h
        · rename_i hc
          injection h with h
          exact ⟨by omega, h ▸ hc⟩
        · simp at h

end Sys2Proof
end

