-- ==== Sys2Proof/Laws/PerInstr.lean ====
section
/-! SUPPORT. The family FrameHead: the shape of every command's encoding. -/

namespace Sys2Proof.Laws

open Sys2Proof

/-- A command's frame begins with its opcode, is three bytes longer than its payload, and ends in the
payload (30_encoding.md R47). -/
def FrameHead.Statement (i : Instr) : Prop :=
  (encode i).head? = some (opcodeOf i) ∧ (encode i).length = 3 + i.payload.length ∧
    (encode i).drop 3 = i.payload

/-- The shape of a raw frame, from which every command's follows. -/
theorem rawFrame_shape (opc : Byte) (p : List Byte) :
    (rawFrame opc p).head? = some opc ∧ (rawFrame opc p).length = 3 + p.length ∧
      (rawFrame opc p).drop 3 = p := by
  refine ⟨rfl, ?_, rfl⟩
  simp [rawFrame, le2]
  omega

theorem FrameHead.gfZero (p : List Byte) : FrameHead.Statement (.gfZero p) := rawFrame_shape _ p
theorem FrameHead.gfXor (p : List Byte) : FrameHead.Statement (.gfXor p) := rawFrame_shape _ p
theorem FrameHead.gfDouble (p : List Byte) : FrameHead.Statement (.gfDouble p) := rawFrame_shape _ p
theorem FrameHead.gfTriple (p : List Byte) : FrameHead.Statement (.gfTriple p) := rawFrame_shape _ p
theorem FrameHead.ocbEncrypt (p : List Byte) : FrameHead.Statement (.ocbEncrypt p) :=
  rawFrame_shape _ p
theorem FrameHead.ocbDecrypt (p : List Byte) : FrameHead.Statement (.ocbDecrypt p) :=
  rawFrame_shape _ p
theorem FrameHead.setKey (p : List Byte) : FrameHead.Statement (.setKey p) := rawFrame_shape _ p
theorem FrameHead.new (p : List Byte) : FrameHead.Statement (.new p) := rawFrame_shape _ p
theorem FrameHead.encrypt (p : List Byte) : FrameHead.Statement (.encrypt p) := rawFrame_shape _ p
theorem FrameHead.decrypt (p : List Byte) : FrameHead.Statement (.decrypt p) := rawFrame_shape _ p
theorem FrameHead.rwProbe (p : List Byte) : FrameHead.Statement (.rwProbe p) := rawFrame_shape _ p
theorem FrameHead.readReg (p : List Byte) : FrameHead.Statement (.readReg p) := rawFrame_shape _ p

end Sys2Proof.Laws
end

