-- ==== Sys2Proof/Tests/Aes.lean ====
section
/-! SUPPORT. AES-128 as a permutation port, for the test vectors only: the spec's vectors instantiate
PERM with it (95_test_vectors.md, 93_implementation_defined.md G1). The model does not use it. -/

namespace Sys2Proof.Tests.Aes

/-- The S-box, entry `n` in bits `8n` to `8n + 7`. -/
def sboxBits : Nat :=
  0x16bb54b00f2d99416842e6bf0d89a18cdf2855cee9871e9b948ed9691198f8e19e1dc186b95735610ef6034866b53e708a8bbd4b1f74dde8c6b4a61c2e2578ba08ae7a65eaf4566ca94ed58d6d37c8e779e4959162acd3c25c2406490a3a32e0db0b5ede14b8ee4688902a22dc4f816073195d643d7ea7c41744975fec130ccdd2f3ff1021dab6bcf5389d928f40a351a89f3c507f02f94585334d43fbaaefd0cf584c4a39becb6a5bb1fc20ed00d153842fe329b3d63b52a05a6e1b1a2c830975b227ebe28012079a059618c323c7041531d871f1e5a534ccf73f362693fdb7c072a49cafa2d4adf04759fa7dc982ca76abd7fe2b670130c56f6bf27b777c63

/-- The inverse S-box, laid out the same way. -/
def invSboxBits : Nat :=
  0x7d0c2155631469e126d677ba7e042b17619953833cbbebc8b0f52aae4d3be0a0ef9cc9939f7ae52d0d4ab519a97f51605fec8027591012b131c7078833a8dd1ff45acd78fec0db9a2079d2c64b3e56fc1bbe18aa0e62b76f89c5291d711af1476edf751ce837f9e28535ade72274ac9673e6b4f0cecff297eadc674f4111913a6b8a130103bdafc1020f3fca8f1e2cd00645b3b80558e4f70ad3bc8c00abd890849d8da75746155edab9edfd5048706c92b6655dcc5ca4d41698688664f6f87225d18b6d49a25b76b224d92866a12e084ec3fa420b954cee3d23c2a632947b54cbe9dec444438e3487ff2f9b8239e37cfbd7f3819ea340bf38a53630d56a0952

def lookup (table n : Nat) : Nat := (table >>> (8 * n)) % 256

/-- Multiplication by 2 in the AES field. -/
def xtime (b : Nat) : Nat := if 128 ≤ b then (2 * b) ^^^ 0x11b else 2 * b

def xorList (a b : List Nat) : List Nat := List.zipWith (· ^^^ ·) a b

def shiftRows (s : List Nat) : List Nat :=
  [0, 5, 10, 15, 4, 9, 14, 3, 8, 13, 2, 7, 12, 1, 6, 11].map fun i => s.getD i 0

def invShiftRows (s : List Nat) : List Nat :=
  [0, 13, 10, 7, 4, 1, 14, 11, 8, 5, 2, 15, 12, 9, 6, 3].map fun i => s.getD i 0

def mixColumn (a b c d : Nat) : Nat := xtime a ^^^ xtime b ^^^ b ^^^ c ^^^ d

def mixColumns : List Nat → List Nat
  | a :: b :: c :: d :: rest =>
    mixColumn a b c d :: mixColumn b c d a :: mixColumn c d a b :: mixColumn d a b c ::
      mixColumns rest
  | _ => []

/-- The inverse of `mixColumns` is its cube. -/
def invMixColumns (s : List Nat) : List Nat := mixColumns (mixColumns (mixColumns s))

/-- The next round key. -/
def nextKey (rcon : Nat) : List Nat → List Nat
  | [a, b, c, d, e, f, g, h, i, j, k, l, m, n, o, p] =>
    let S := lookup sboxBits
    let w₀ := [a ^^^ S n ^^^ rcon, b ^^^ S o, c ^^^ S p, d ^^^ S m]
    let w₁ := xorList w₀ [e, f, g, h]
    let w₂ := xorList w₁ [i, j, k, l]
    let w₃ := xorList w₂ [m, n, o, p]
    w₀ ++ w₁ ++ w₂ ++ w₃
  | _ => []

/-- The round keys, the first one first. -/
def roundKeys : List Nat → List Nat → List (List Nat)
  | k, [] => [k]
  | k, rcon :: rcons => k :: roundKeys (nextKey rcon k) rcons

def schedule (k : List Nat) : List (List Nat) :=
  roundKeys k [0x01, 0x02, 0x04, 0x08, 0x10, 0x20, 0x40, 0x80, 0x1b, 0x36]

def subShift (s : List Nat) : List Nat := shiftRows (s.map (lookup sboxBits))

def encryptRounds (s : List Nat) : List (List Nat) → List Nat
  | [] => s
  | [k] => xorList (subShift s) k
  | k :: ks => encryptRounds (xorList (mixColumns (subShift s)) k) ks

def encryptNat (key s : List Nat) : List Nat :=
  match schedule key with
  | [] => s
  | k :: ks => encryptRounds (xorList s k) ks

def invSubShift (s : List Nat) : List Nat := (invShiftRows s).map (lookup invSboxBits)

def decryptRounds (s : List Nat) : List (List Nat) → List Nat
  | [] => s
  | [k] => xorList (invSubShift s) k
  | k :: ks => decryptRounds (invMixColumns (xorList (invSubShift s) k)) ks

def decryptNat (key s : List Nat) : List Nat :=
  match (schedule key).reverse with
  | [] => s
  | k :: ks => decryptRounds (xorList s k) ks

def toNats (b : Block) : List Nat := b.toList.map BitVec.toNat

def ofNats (l : List Nat) : Block := Machine.blockOf (l.map (BitVec.ofNat 8))

/-- AES-128 encryption and decryption as a permutation port. -/
def port : PermPort where
  E := fun K B => ofNats (encryptNat (toNats K) (toNats B))
  Einv := fun K B => ofNats (decryptNat (toNats K) (toNats B))

/-- The parameters of the test vectors; no vector depends on MAX_PLAIN within its range. -/
def params : Params where
  port := port
  maxPlain := 512
  window := Config.window

end Sys2Proof.Tests.Aes
end

