-- ==== Sys2Proof/Tests/Slice0.lean ====
section
/-! SUPPORT. Tests. Frames, byte vectors and expected responses come from 30_encoding.md and
95_test_vectors.md (the vector's name stands in each docstring), with AES-128 as the permutation port
where the vector needs one. Each witness shows states and operands that meet every hypothesis of the
statement it is named after, at the bounds of its ranges. -/

namespace Sys2Proof.Tests

open Sys2Proof Sys2Proof.Machine

/-! ### Helpers -/

/-- The key K8 of the vectors. -/
def k8 : List Byte :=
  [0x96, 0x8b, 0x1b, 0x0c, 0x53, 0x1e, 0x1f, 0x80, 0xa6, 0x1d, 0xcb, 0x27, 0x94, 0x09, 0x6f, 0x32]

/-- A counter image of the vectors, by its low byte: EIV8 is `image 0x1e`, N8 is `image 0x1f`. -/
def image (b : Byte) : List Byte :=
  [b, 0x2a, 0x9b, 0xd0, 0x2d, 0xa6, 0x8e, 0x46, 0x26, 0x85, 0x83, 0xe9, 0x14, 0x2a, 0xff, 0x2a]

/-- The bytes 1 to `n` in order. -/
def upTo (n : Nat) : List Byte := (List.range n).map fun i => BitVec.ofNat 8 (i + 1)

/-- The state after `SET_KEY K8` with these counters, from reset. -/
def keyedAt (eiv div : List Byte) : State :=
  { State.reset with keyValid := true, key := blockOf k8, eiv := valLe eiv, div := valLe div }

/-- The state after the vectors' SET_KEY. -/
def keyed : State := keyedAt (image 0x1e) (image 0x1e)

/-- The state of P2b after its first command. -/
def accepted1f : State :=
  { keyedAt (image 0x1f) (image 0x1f) with
    hist := emptyHist.set 0x1f (some (valLe (image 0x1f))), good := 1 }

/-- The last response of a next state, as status, INFO and payload. -/
def answer (o : Host.Outcome State Fault Refusal) : Option (Status × Byte × List Byte) :=
  match o with
  | .next s => s.outbox.getLast?.map fun r => (r.status, r.info, r.payload)
  | .fault _ => none
  | .refused _ => none

/-- The images of EIV and DIV and the four event counters. -/
def counters (s : State) :
    List Byte × List Byte × EventCount × EventCount × EventCount × EventCount :=
  ((le16 s.eiv).toList, (le16 s.div).toList, s.good, s.late, s.lost, s.resync)

/-! ### Well-formedness: what the checks refuse -/

/-- A payload of 65535 bytes fits PLEN, one of 65536 does not (30_encoding.md R47). -/
theorem test_wellFormed_bounds :
    (Instr.gfZero (List.replicate 65535 0)).WellFormed ∧
      ¬ (Instr.gfZero (List.replicate 65536 0)).WellFormed :=
  ⟨Nat.le_of_eq List.length_replicate,
    Nat.not_le_of_lt (by rw [Instr.payload, List.length_replicate]; decide)⟩

/-- The assembler's lengths (30_encoding.md R69): unequal GF_XOR operands and a field longer than its
length byte can say are refused. -/
theorem test_asm_wellFormed_refuses :
    (Asm.gfXor [0x01] []).WellFormed = false ∧
      (Asm.setKey (List.replicate 256 0) [] []).WellFormed = false ∧
      (Asm.setKey [] (List.replicate 256 0) []).WellFormed = false ∧
      (Asm.setKey [] [] (List.replicate 256 0)).WellFormed = false ∧
      (Asm.gfXor [0x01] [0x02]).WellFormed = true := by
  decide +kernel

/-! ### Decoding: the frame of every opcode, written out (30_encoding.md R47, R50) -/

theorem test_decode_gfZero :
    decode [0x10, 0x03, 0x00, 0x01, 0x02, 0x03] = .ok (.gfZero [0x01, 0x02, 0x03]) := by decide
theorem test_decode_gfXor :
    decode [0x11, 0x04, 0x00, 0x05, 0x06, 0x05, 0x06] = .ok (.gfXor [0x05, 0x06, 0x05, 0x06]) := by
  decide
theorem test_decode_gfDouble :
    decode ([0x12, 0x10, 0x00] ++ k8) = .ok (.gfDouble k8) := by decide
theorem test_decode_gfTriple :
    decode ([0x13, 0x10, 0x00] ++ k8) = .ok (.gfTriple k8) := by decide
theorem test_decode_ocbEncrypt :
    decode ([0x20, 0x2f, 0x00] ++ k8 ++ image 0x1f ++ upTo 15) =
      .ok (.ocbEncrypt (k8 ++ image 0x1f ++ upTo 15)) := by decide
theorem test_decode_ocbDecrypt :
    decode ([0x21, 0x25, 0x00] ++ k8 ++ image 0x1f ++ [0xfc, 0xdd, 0xb5, 0x68, 0x13]) =
      .ok (.ocbDecrypt (k8 ++ image 0x1f ++ [0xfc, 0xdd, 0xb5, 0x68, 0x13])) := by decide
theorem test_decode_setKey :
    decode ([0x30, 0x33, 0x00, 0x10] ++ k8 ++ [0x10] ++ image 0x1e ++ [0x10] ++ image 0x1e) =
      .ok (.setKey ([0x10] ++ k8 ++ [0x10] ++ image 0x1e ++ [0x10] ++ image 0x1e)) := by decide
theorem test_decode_new : decode [0x31, 0x00, 0x00] = .ok (.new []) := by decide
theorem test_decode_encrypt :
    decode [0x40, 0x02, 0x00, 0xaa, 0xbb] = .ok (.encrypt [0xaa, 0xbb]) := by decide
theorem test_decode_decrypt :
    decode [0x41, 0x06, 0x00, 0x1f, 0x2c, 0x69, 0xcc, 0x95, 0x4a] =
      .ok (.decrypt [0x1f, 0x2c, 0x69, 0xcc, 0x95, 0x4a]) := by decide
theorem test_decode_rwProbe : decode [0x42, 0x01, 0x00, 0x1f] = .ok (.rwProbe [0x1f]) := by decide
theorem test_decode_readReg : decode [0x50, 0x01, 0x00, 0x07] = .ok (.readReg [0x07]) := by decide

/-- PLEN's high byte counts 256s: `10 00 01` asks for 256 bytes. -/
theorem test_decode_plen_high :
    decode ([0x10, 0x00, 0x01] ++ List.replicate 256 0x5a) =
      .ok (.gfZero (List.replicate 256 0x5a)) := by decide +kernel

/-- The opcodes next to each listed run are reserved. -/
theorem test_decode_reserved :
    ∀ opc ∈ ([0x0f, 0x14, 0x1f, 0x22, 0x2f, 0x32, 0x3f, 0x43, 0x4f, 0x51, 0x00, 0xff] : List Byte),
      decode [opc, 0x00, 0x00] = .error (.reservedOpcode opc) := by decide

/-! ### The field commands (S1, V-GF) -/

/-- V-GF-Z2. -/
theorem test_gfZero :
    answer (exec (.gfZero [0x01, 0x02, 0x03]) State.reset) = some (.ok, 0x00, [0x00, 0x00, 0x00]) := by
  decide

/-- V-GF-X1. -/
theorem test_gfXor :
    answer (exec (.gfXor [0x05, 0x06, 0x05, 0x06]) State.reset) = some (.ok, 0x00, [0x00, 0x00]) := by
  decide

/-- V-GF-X3. -/
theorem test_gfXor_odd :
    answer (exec (.gfXor [0x01, 0x02, 0x03]) State.reset) = some (.illegalCommand, 0x00, []) := by
  decide

/-- V-GF-D1, the golden vector of S1. -/
theorem test_gfDouble :
    answer (exec (.gfDouble ([0x80] ++ List.replicate 14 0xff ++ [0xfe])) State.reset) =
      some (.ok, 0x00, [0x01] ++ List.replicate 14 0xff ++ [0x7b]) := by decide +kernel

/-- V-GF-D7: the carry out of byte 15 goes into byte 14. -/
theorem test_gfDouble_carry :
    answer (exec (.gfDouble (List.replicate 15 0x00 ++ [0x80])) State.reset) =
      some (.ok, 0x00, List.replicate 14 0x00 ++ [0x01, 0x00]) := by decide +kernel

/-- V-GF-T1. -/
theorem test_gfTriple :
    answer (exec (.gfTriple ([0x80] ++ List.replicate 14 0xff ++ [0xfe])) State.reset) =
      some (.ok, 0x00, [0x81] ++ List.replicate 14 0x00 ++ [0x85]) := by decide +kernel

/-- V-GF-T7. -/
theorem test_gfTriple_no_carry :
    answer (exec (.gfTriple ([0x12, 0x34] ++ List.replicate 14 0x00)) State.reset) =
      some (.ok, 0x00, [0x36, 0x5c] ++ List.replicate 14 0x00) := by decide +kernel

/-! ### OCBCore (V-OCB) -/

/-- V-OCB-C1. -/
theorem test_ocbEncrypt :
    answer (.next (perform Aes.params (.ocbEncrypt (k8 ++ image 0x1f ++ upTo 15)) State.reset)) =
      some (.ok, 0x00,
        [0x68, 0x13, 0x68, 0xb7, 0x92, 0x67, 0xca, 0x2d, 0xba, 0xb7, 0x0d, 0x44, 0xdf, 0x32, 0xd4,
         0xfc, 0xdd, 0xb4, 0xd6, 0xbf, 0x70, 0xca, 0xe3, 0xe8, 0x15, 0x06, 0x54, 0xc1, 0x55, 0xad,
         0x5b]) := by decide +kernel

/-- V-OCB-L17: one loop block and a final block of one byte. -/
theorem test_ocbEncrypt_loop :
    answer (.next (perform Aes.params (.ocbEncrypt (k8 ++ image 0x1f ++ upTo 17)) State.reset)) =
      some (.ok, 0x00,
        [0x57, 0xd3, 0xc2, 0x1f, 0xe2, 0xcd, 0x8e, 0x06, 0x93, 0xa1, 0x15, 0x98, 0xe8, 0x51, 0x17,
         0xb4, 0x3a, 0xdf, 0x5d, 0x6d, 0x59, 0x36, 0xbe, 0x8a, 0x62, 0x57, 0x18, 0x01, 0x06, 0x0d,
         0x62, 0x55, 0xb9]) := by decide +kernel

/-- V-OCB-T0: the loop of decryption takes the inverse permutation. -/
theorem test_ocbDecrypt :
    answer (.next (perform Aes.params (.ocbDecrypt (k8 ++ image 0x1f ++ [0xdf, 0x5d, 0x6d] ++
      [0x57, 0xd3, 0xc2, 0x1f, 0xe2, 0xcd, 0x8e, 0x06, 0x93, 0xa1, 0x15, 0x98, 0xe8, 0x51, 0x17,
       0xb4, 0x3a])) State.reset)) = some (.ok, 0x00, upTo 17) := by decide +kernel

/-- V-OCB-C3. -/
theorem test_ocbDecrypt_tampered :
    answer (.next (perform Aes.params
      (.ocbDecrypt (k8 ++ image 0x1f ++ [0xfc, 0xdd, 0xb5, 0x68, 0x13])) State.reset)) =
      some (.authenticationFailure, 0x00, []) := by decide +kernel

/-! ### The session commands (V-ST, V-PR, V-RW, P1 to P6) -/

/-- P1 command 1. -/
theorem test_setKey :
    let t := perform Config.params
      (.setKey ([0x10] ++ k8 ++ [0x10] ++ image 0x1e ++ [0x10] ++ image 0x1f)) State.reset
    answer (.next t) = some (.ok, 0x00, []) ∧ t.key.toList = k8 ∧
      counters t = (image 0x1e, image 0x1f, 0, 0, 0, 0) := by decide +kernel

/-- V-PR-3, with the PLEN its note gives (log 12): the key's length comes before the IVs'. -/
theorem test_setKey_priority :
    answer (exec (.setKey ([0x0f] ++ k8.take 15 ++ [0x10] ++ image 0x1e ++ [0x08] ++
      (image 0x1e).take 8)) State.reset) = some (.invalidKeyLength, 0x00, []) := by decide +kernel

/-- The 48 bytes of K8, EIV8 and N8 as a random draw. -/
def draw : Draw := Vector.ofFn fun i : Fin 48 => (k8 ++ image 0x1e ++ image 0x1f).getD i.val 0

/-- 44_cryptstate.md R121: bytes 0..15, 16..31 and 32..47 of the draw. -/
theorem test_new :
    let t := perform Config.params (.new []) { State.reset with rng := [some draw] }
    answer (.next t) = some (.ok, 0x00, []) ∧ t.key.toList = k8 ∧
      counters t = (image 0x1e, image 0x1f, 0, 0, 0, 0) := by decide +kernel

/-- V-ST-3. -/
theorem test_new_none :
    answer (exec (.new []) { State.reset with rng := [none] }) =
      some (.randomnessUnavailable, 0x00, []) := by decide

/-- P1 command 2, the concrete vector S9, with the EIV it leaves. -/
theorem test_encrypt :
    let t := perform Aes.params (.encrypt (upTo 15)) keyed
    answer (.next t) = some (.ok, 0x00,
        [0x1f, 0xfc, 0xdd, 0xb4, 0x68, 0x13, 0x68, 0xb7, 0x92, 0x67, 0xca, 0x2d, 0xba, 0xb7, 0x0d,
         0x44, 0xdf, 0x32, 0xd4]) ∧
      counters t = (image 0x1f, image 0x1e, 0, 0, 0, 0) := by decide +kernel

/-- V-IV-W1: the counter wraps to zero. -/
theorem test_encrypt_wrap :
    let t := perform Aes.params (.encrypt [])
      (keyedAt (List.replicate 16 0xff) (List.replicate 16 0xff))
    answer (.next t) = some (.ok, 0x00, [0x00, 0x3b, 0x3e, 0xfd]) ∧ t.eiv = 0 := by decide +kernel

/-- P2b command 1, with the counters and the slot it leaves. -/
theorem test_decrypt :
    let t := perform Aes.params (.decrypt [0x1f, 0x2c, 0x69, 0xcc, 0x95, 0x4a])
      (keyedAt (image 0x1f) (image 0x1e))
    answer (.next t) = some (.ok, 0x00, [0xaa, 0xbb]) ∧
      counters t = (image 0x1f, image 0x1f, 1, 0, 0, 0) ∧
      t.hist[0x1f] = some (valLe (image 0x1f)) := by decide +kernel

/-- V-PR-5: replay comes before authentication. -/
theorem test_decrypt_replay :
    answer (exec (.decrypt [0x1f, 0x00, 0x00, 0x00, 0x95, 0x4a]) accepted1f) =
      some (.replay, 0x00, []) := by decide +kernel

/-- V-RW-P1: late and seen. -/
theorem test_rwProbe :
    answer (exec (.rwProbe [0x1f]) accepted1f) = some (.ok, 0x01, image 0x1f ++ [0x01]) := by
  decide +kernel

/-- V-RW-P5: a resync candidate, 224 ahead. -/
theorem test_rwProbe_resync :
    answer (exec (.rwProbe [0xff]) accepted1f) = some (.ok, 0x03, image 0xff ++ [0x00]) := by
  decide +kernel

/-- P1 command 3. -/
theorem test_readReg_eiv :
    answer (exec (.readReg [0x01]) (keyedAt (image 0x1f) (image 0x1e))) =
      some (.ok, 0x00, image 0x1f) := by decide +kernel

/-- P2b command 3. -/
theorem test_readReg_good :
    answer (exec (.readReg [0x03]) accepted1f) = some (.ok, 0x00, [0x01, 0x00, 0x00, 0x00]) := by
  decide +kernel

/-! ### One step -/

/-- V-ST-9 through a step: a reserved opcode raises IllegalCommand. -/
theorem test_step_reserved :
    answer (step { State.reset with inbox := [.frame [0x00, 0x00, 0x00]] }) =
      some (.illegalCommand, 0x00, []) := by decide

/-- `withFetchWord` delivers a row's bits as the frame of the very next step: the table's RW_PROBE
row, 8 bits with no PLEN above them, is the frame `42 00 00`. -/
theorem test_withFetchWord :
    decodeTableWord 8 0x42 = some (.rwProbe []) ∧
      answer (step (State.reset.withFetchWord 8 0x42)) = some (.illegalCommand, 0x00, []) := by
  decide

/-! ### Witnesses: states and operands that meet every hypothesis -/

/-- A keyed state away from reset, with DIV's low byte at 0xff, so that distances carry. -/
def atWork : State :=
  { State.reset with
    keyValid := true, key := blockOf k8, eiv := 0x1ff, div := 0x1ff,
    hist := emptyHist.set 0xfe (some 0x1fe), good := 1, lost := 2 }

/-- The identity on blocks, a lawful permutation port. -/
def idPort : PermPort where
  E := fun _ B => B
  Einv := fun _ B => B

theorem witness_UnkeyedValuesAreUnobservable : State.reset.keyValid = false := rfl

theorem witness_ResetInputRestoresTheResetRecord :
    { atWork with inbox := [.reset, .frame [0x31, 0x00, 0x00]] }.inbox =
      .reset :: [.frame [0x31, 0x00, 0x00]] := rfl

theorem witness_StepWaitsWithoutInput : atWork.inbox = [] := rfl

theorem witness_StepRunsTheDecodedCommand :
    { atWork with inbox := [.frame [0x40, 0x02, 0x00, 0xaa, 0xbb], .reset] }.inbox =
        .frame [0x40, 0x02, 0x00, 0xaa, 0xbb] :: [.reset] ∧
      decode [0x40, 0x02, 0x00, 0xaa, 0xbb] = .ok (.encrypt [0xaa, 0xbb]) ∧
      (Instr.encrypt [0xaa, 0xbb]).WellFormed := by
  exact ⟨rfl, rfl, by decide⟩

/-- First clause: a reserved opcode with payloads of 0 and 256 bytes. -/
theorem witness_IllegalEncodings_reserved :
    (0x00 : Byte) ∉ listedOpcodes ∧ (0xff : Byte) ∉ listedOpcodes ∧
      ([] : List Byte).length = (0x00 : Byte).toNat + 256 * (0x00 : Byte).toNat ∧
      (List.replicate 256 (0x5a : Byte)).length =
        (0x00 : Byte).toNat + 256 * (0x01 : Byte).toNat ∧
      { atWork with inbox := [.frame [0xff, 0x00, 0x00]] }.inbox =
        .frame [0xff, 0x00, 0x00] :: [] := by
  exact ⟨by decide, by decide, rfl, by rw [List.length_replicate]; decide, rfl⟩

/-- Second clause: each opcode with a layout rule, one byte on either side of a bound. -/
theorem witness_IllegalEncodings_layout :
    ¬ LayoutOk Config.maxPlain (.gfXor [0x01]) ∧
      ¬ LayoutOk Config.maxPlain (.gfDouble (List.replicate 15 0)) ∧
      ¬ LayoutOk Config.maxPlain (.gfTriple (List.replicate 17 0)) ∧
      ¬ LayoutOk Config.maxPlain (.ocbEncrypt (List.replicate 31 0)) ∧
      ¬ LayoutOk Config.maxPlain (.ocbEncrypt (List.replicate (33 + Config.maxPlain) 0)) ∧
      ¬ LayoutOk Config.maxPlain (.ocbDecrypt (List.replicate 34 0)) ∧
      ¬ LayoutOk Config.maxPlain (.ocbDecrypt (List.replicate (36 + Config.maxPlain) 0)) ∧
      ¬ LayoutOk Config.maxPlain (.setKey [0x00, 0x00]) ∧
      ¬ LayoutOk Config.maxPlain (.new [0x00]) ∧
      ¬ LayoutOk Config.maxPlain (.encrypt (List.replicate (Config.maxPlain + 1) 0)) ∧
      ¬ LayoutOk Config.maxPlain (.rwProbe []) ∧
      ¬ LayoutOk Config.maxPlain (.readReg [0x00, 0x00]) := by
  refine ⟨?_, ?_, ?_, ?_, ?_, ?_, ?_, ?_, ?_, ?_, ?_, ?_⟩
  case refine_8 =>
    rintro ⟨k, e, d, -, -, -, h⟩
    have := congrArg List.length h
    simp [lengthPrefixed] at this
    omega
  all_goals simp [LayoutOk]

theorem witness_MisdeliveredFramesAreRefused :
    ([0x10, 0x00] : List Byte).length < 3 ∧
      ([] : List Byte).length < (0x01 : Byte).toNat + 256 * (0x00 : Byte).toNat ∧
      (List.replicate 255 (0 : Byte)).length < (0x00 : Byte).toNat + 256 * (0x01 : Byte).toNat ∧
      (0x00 : Byte).toNat + 256 * (0x00 : Byte).toNat < ([0x5a] : List Byte).length ∧
      { atWork with inbox := [.frame [0x10, 0x01, 0x00]] }.inbox =
        .frame [0x10, 0x01, 0x00] :: [] := by
  exact ⟨by decide, by decide, by rw [List.length_replicate]; decide, by decide, rfl⟩

theorem witness_DecodeOfEncode :
    (Instr.new []).WellFormed ∧ (Instr.gfZero (List.replicate 65535 0)).WellFormed :=
  ⟨by decide, test_wellFormed_bounds.1⟩

theorem witness_EncodeOfDecode : decode [0x42, 0x01, 0x00, 0x1f] = .ok (.rwProbe [0x1f]) := rfl

theorem witness_AssembledFormsDecode :
    (List.replicate 65535 (0 : Byte)).length ≤ 65535 ∧
      ([0x05] : List Byte).length = ([0x06] : List Byte).length ∧
      2 * (List.replicate 32767 (0 : Byte)).length ≤ 65535 ∧
      32 + (List.replicate 65503 (0 : Byte)).length ≤ 65535 ∧
      35 + (List.replicate 65500 (0 : Byte)).length ≤ 65535 ∧
      (List.replicate 255 (0 : Byte)).length ≤ 255 := by
  refine ⟨?_, rfl, ?_, ?_, ?_, ?_⟩ <;> rw [List.length_replicate] <;> decide

theorem witness_ResponseBytes :
    (⟨.ok, 0x00, List.replicate 65535 0⟩ : Response).payload.length ≤ 65535 :=
  test_wellFormed_bounds.1

theorem witness_GfXorCombinesTheHalves :
    ([0x01, 0x02, 0x03] : List Byte).length % 2 = 1 ∧
      ([0x05, 0x06] : List Byte).length = ([0x06, 0x06] : List Byte).length ∧
      1 < ([0x05, 0x06] : List Byte).length := by decide

theorem witness_GfDoubleShiftsAndReduces :
    (List.replicate 15 (0 : Byte)).length ≠ 16 ∧ (List.replicate 17 (0 : Byte)).length ≠ 16 ∧
      14 < 15 := by decide

theorem witness_GfTripleAddsTheDouble :
    (List.replicate 15 (0 : Byte)).length ≠ 16 ∧ (List.replicate 17 (0 : Byte)).length ≠ 16 ∧
      15 < 16 := by decide

/-- The reading of a block as a polynomial that the statement asks for exists. -/
theorem witness_DoublingIsMultiplicationByX :
    ∃ poly : Block → Polynomial (ZMod 2), ∀ B : Block, poly B = ∑ i ∈ Finset.range 128,
      if (valBe B.toList).testBit i then Polynomial.X ^ i else 0 :=
  ⟨_, fun _ => rfl⟩

theorem witness_BlockSplitCoversTheMessage : (0 : Nat) = 0 ∧ 1 ≤ 1 ∧ 1 ≤ 16 ∧ 1 ≤ 17 := by decide

/-- Offsets, blocks, length block, pad and final block exist for every message; at its bounds L = 0,
L = 16 (no loop block, a full final block) and L = 17 (one loop block, a final block of one byte). -/
theorem witness_EncryptionBlockByBlock :
    ∀ Pt ∈ [[], upTo 16, upTo 17], ∃ (m r : Nat) (Δ P : Nat → Block) (Λ Pad Tf : Block),
      m = loopBlocks Pt.length ∧ r = Pt.length - 16 * m ∧ Δ 0 = idPort.E (blockOf k8) zeroBlock ∧
      (∀ j, Δ (j + 1) = dbl (Δ j)) ∧ (∀ i, P i = blockOf ((Pt.drop (16 * i)).take 16)) ∧
      Λ.toList = List.replicate 15 0 ++ [BitVec.ofNat 8 (8 * r)] ∧
      Pad = idPort.E (blockOf k8) (xorBlock Λ (Δ (m + 1))) ∧
      Tf.toList = Pt.drop (16 * m) ++ Pad.toList.drop r := by
  intro Pt _
  have h₁ := sixteen_mul_loopBlocks_le Pt.length
  have h₂ := tailLength_le Pt.length
  rw [tailLength] at h₂
  exact ⟨_, _, fun j => dbl^[j] zeroBlock, _, lengthBlock _, _, blockOf _, rfl, rfl, rfl,
    fun j => Function.iterate_succ_apply' .., fun _ => rfl, toList_blockOf_of_length (by simp), rfl,
    toList_blockOf_of_length (by simp; omega)⟩

theorem witness_DecryptionBlockByBlock :
    ∀ Ct ∈ [[], upTo 16, upTo 17], ∃ (m r : Nat) (Δ P : Nat → Block) (Λ Pad Tf : Block),
      m = loopBlocks Ct.length ∧ r = Ct.length - 16 * m ∧ Δ 0 = idPort.E (blockOf k8) zeroBlock ∧
      (∀ j, Δ (j + 1) = dbl (Δ j)) ∧
      (∀ i, P i = xorBlock (idPort.Einv (blockOf k8)
        (xorBlock (blockOf ((Ct.drop (16 * i)).take 16)) (Δ (i + 1)))) (Δ (i + 1))) ∧
      Λ.toList = List.replicate 15 0 ++ [BitVec.ofNat 8 (8 * r)] ∧
      Pad = idPort.E (blockOf k8) (xorBlock Λ (Δ (m + 1))) ∧
      Tf.toList = xorb (Ct.drop (16 * m) ++ List.replicate (16 - r) 0) Pad.toList := by
  intro Ct _
  have h₁ := sixteen_mul_loopBlocks_le Ct.length
  have h₂ := tailLength_le Ct.length
  rw [tailLength] at h₂
  exact ⟨_, _, fun j => dbl^[j] zeroBlock, _, lengthBlock _, _, blockOf _, rfl, rfl, rfl,
    fun j => Function.iterate_succ_apply' .., fun _ => rfl, toList_blockOf_of_length (by simp), rfl,
    toList_blockOf_of_length (by simp; omega)⟩

theorem witness_OcbRoundTrip :
    idPort.Lawful ∧ ∃ (Ct : List Byte) (tagFull : Block),
      ocbEnc idPort (blockOf k8) (blockOf (image 0x1f)) (upTo 17) = (Ct, tagFull) :=
  ⟨fun _ _ => ⟨rfl, rfl⟩, _, _, rfl⟩

theorem witness_OcbEncryptReturnsCiphertextAndTag :
    (List.replicate 31 (0 : Byte)).length < 32 ∧
      Config.maxPlain < (List.replicate (33 + Config.maxPlain) (0 : Byte)).length - 32 ∧
      ([] : List Byte).length ≤ Config.maxPlain ∧
      (List.replicate Config.maxPlain (0 : Byte)).length ≤ Config.maxPlain := by
  simp
  omega

theorem witness_OcbDecryptReleasesOnlyOnTagMatch :
    (List.replicate 34 (0 : Byte)).length < 35 ∧
      Config.maxPlain < (List.replicate (36 + Config.maxPlain) (0 : Byte)).length - 35 ∧
      ([] : List Byte).length ≤ Config.maxPlain ∧
      (List.replicate Config.maxPlain (0 : Byte)).length ≤ Config.maxPlain := by
  simp
  omega

theorem witness_OcbCommandsRoundTrip :
    (List.replicate Config.maxPlain (0 : Byte)).length ≤ Config.maxPlain := by
  simp

/-- The length clauses at 0 and MAX_PLAIN, an unseen candidate, and a DECRYPT for each status that
makes no call. -/
theorem witness_PortCallCounts :
    ([] : List Byte).length ≤ Aes.params.maxPlain ∧
      (List.replicate 512 (0 : Byte)).length ≤ Aes.params.maxPlain ∧ atWork.keyValid = true ∧
      seen atWork (candidate Aes.params.window atWork.div 0x00) = false ∧
      (perform Aes.params (.ocbEncrypt (upTo 31)) atWork).outbox =
        atWork.outbox ++ [⟨.illegalCommand, 0x00, []⟩] ∧
      (perform Aes.params (.ocbDecrypt (upTo 34)) atWork).outbox =
        atWork.outbox ++ [⟨.illegalCommand, 0x00, []⟩] ∧
      (perform Aes.params (.encrypt []) State.reset).outbox =
        State.reset.outbox ++ [⟨.notKeyed, 0x00, []⟩] ∧
      (perform Aes.params (.decrypt []) State.reset).outbox =
        State.reset.outbox ++ [⟨.notKeyed, 0x00, []⟩] ∧
      (perform Aes.params (.decrypt []) atWork).outbox =
        atWork.outbox ++ [⟨.malformedPacket, 0x00, []⟩] ∧
      (perform Aes.params (.decrypt [0xfe, 0x00, 0x00, 0x00]) atWork).outbox =
        atWork.outbox ++ [⟨.replay, 0x00, []⟩] := by decide +kernel

/-- A second port that answers differently, but not under the key of the calls. -/
def otherPort : PermPort where
  E := fun K B => if K = zeroBlock then zeroBlock else B
  Einv := fun K B => if K = zeroBlock then zeroBlock else B

theorem witness_CommandsDependOnlyOnTheirPortCalls :
    let P : Params := { Aes.params with port := idPort }
    let P' : Params := { Aes.params with port := otherPort }
    P'.maxPlain = P.maxPlain ∧ P'.window = P.window ∧
      ∀ q ∈ portCalls P (.encrypt (upTo 17)) atWork,
        portAnswer P'.port q = portAnswer P.port q := by
  exact ⟨rfl, rfl, by decide +kernel⟩

theorem encrypt_empty_at_work :
    exec (.encrypt []) atWork = .next (State.answering { atWork with eiv := 0x200 }
      ⟨.ok, 0x00, sealPacket Config.port atWork.key 0x200 []⟩) := by
  simp only [exec, execEncrypt, encryptCommand]
  rw [if_pos (show ([] : List Byte).length ≤ Config.params.maxPlain from Nat.zero_le _),
    if_pos (show atWork.keyValid = true from rfl)]
  rfl

/-- ENCRYPT with each outcome, and another command. -/
theorem witness_OnlyEncryptAndInstallationMoveEiv :
    installs (.encrypt []) = false ∧ installs (.gfZero []) = false ∧
      (∃ (t : State) (r : Response), exec (.encrypt []) atWork = .next t ∧
        t.outbox = atWork.outbox ++ [r] ∧ r.status = .ok) ∧
      (∃ (t : State) (r : Response),
        exec (.encrypt (List.replicate (Config.maxPlain + 1) 0)) atWork = .next t ∧
        t.outbox = atWork.outbox ++ [r] ∧ r.status ≠ .ok) ∧
      (∃ (t : State) (r : Response), exec (.gfZero []) atWork = .next t ∧
        t.outbox = atWork.outbox ++ [r]) := by
  refine ⟨rfl, rfl, ⟨_, _, encrypt_empty_at_work, rfl, rfl⟩,
    ⟨atWork.raising .illegalCommand, _, ?_, rfl, by decide⟩, ⟨_, _, rfl, rfl⟩⟩
  simp only [exec, execEncrypt, encryptCommand]
  rw [if_neg (show ¬ (List.replicate (Config.maxPlain + 1) (0 : Byte)).length ≤
    Config.params.maxPlain by simp [Config.params])]
  rfl

/-- The packet with an empty ciphertext that the block accepts at a candidate: its tag is read off
the recomputed one. -/
def genuine (s : State) (h : Byte) : List Byte :=
  let tag := (ocbDec Config.port s.key (le16 (candidate Config.window s.div h)) []).2
  [h, tag[0], tag[1], tag[2]]

theorem genuine_accepted (s : State) (h : Byte) (hk : s.keyValid = true)
    (hs : seen s (candidate Config.window s.div h) = false) :
    exec (.decrypt (genuine s h)) s = .next (State.answering
      (applyAccept (candidate Config.window s.div h) (candidateDistance Config.window s.div h)
        (classOf Config.window (candidateDistance Config.window s.div h)) s)
      ⟨.ok, classCode (classOf Config.window (candidateDistance Config.window s.div h)), []⟩) := by
  have hv : ocbVerify Config.port s.key (le16 (candidate Config.window s.div h))
      (tagOf (genuine s h).tail) [] = some [] := by
    rw [ocbVerify]
    simp only
    rw [if_pos (tagDiff_eq_zero.mpr (by simp [truncateTag, genuine, tagOf]))]
    exact congrArg some (List.eq_nil_of_length_eq_zero (ocbDec_length ..))
  have hw : wireOperand Config.params.maxPlain (genuine s h) =
      some ⟨h, tagOf (genuine s h).tail, []⟩ := wireOperand_cons _ _ _ _ (Nat.zero_le _)
  simp only [exec, execDecrypt, decryptCommand, hk, if_true, hw]
  rcases rwDecide_cases Config.params s ⟨h, tagOf (genuine s h).tail, []⟩ with
    ⟨hx, _⟩ | ⟨_, hx, _⟩ | ⟨pt, _, hx, hd⟩
  · exact absurd (hs.symm.trans hx) (by decide)
  · exact absurd (hx.symm.trans hv) (by simp)
  · have hp : pt = [] := by
      have := hx.symm.trans hv
      simpa using this
    rw [hd, hp]
    rfl

/-- A DECRYPT that moves DIV, one that fails, and another command. -/
theorem witness_DivMovesOnlyForward :
    installs (.decrypt (genuine atWork 0x00)) = false ∧ installs (.gfZero []) = false ∧
      (∃ t : State, exec (.decrypt (genuine atWork 0x00)) atWork = .next t ∧ t.div = 0x200) ∧
      (∃ t : State, exec (.decrypt []) atWork = .next t) ∧
      (∃ t : State, exec (.gfZero []) atWork = .next t) :=
  ⟨rfl, rfl, ⟨_, genuine_accepted atWork 0x00 rfl (by decide +kernel), by decide +kernel⟩,
    ⟨_, rfl⟩, ⟨_, rfl⟩⟩

/-- The ends of the reach, and of the tolerance window. -/
theorem witness_CandidateIsUnique :
    (-29 : Int) ≤ -29 ∧ (226 : Int) ≤ 255 - 29 ∧
      low ((0x1ff : Counter) + BitVec.ofInt 128 (-29)) = 0xe2 ∧
      low ((0x1ff : Counter) + BitVec.ofInt 128 226) = 0xe1 ∧ (127 : Int) ≤ 127 ∧
      low ((0x1ff : Counter) + BitVec.ofInt 128 127) =
        low ((0x1ff : Counter) + BitVec.ofInt 128 127) := by decide +kernel

/-- V-RW-7 and V-RW-8: the class clauses at the bounds of their ranges. -/
theorem witness_ClassesFollowTheDistance :
    classOf Config.window 1 = .good ∧ classOf Config.window 0 = .late ∧
      classOf Config.window (-29) = .late ∧ classOf Config.window 2 = .lost ∧
      classOf Config.window 127 = .lost ∧ classOf Config.window 128 = .resync ∧
      classOf Config.window 226 = .resync := by decide

theorem witness_RwProbeReportsTheCandidate :
    ([] : List Byte).length ≠ 1 ∧ ([0x00, 0x00] : List Byte).length ≠ 1 ∧
      State.reset.keyValid = false ∧ atWork.keyValid = true ∧
      (0x1fe : Counter) = candidate Config.window atWork.div 0xfe ∧
      PacketClass.late = classOf Config.window (candidateDistance Config.window atWork.div 0xfe) := by
  decide +kernel

theorem witness_ProbePredictsReplay :
    atWork.keyValid = true ∧ (List.replicate Config.maxPlain (0 : Byte)).length ≤ Config.maxPlain ∧
      seen atWork (candidate Config.window atWork.div 0xfe) = true ∧
      seen atWork (candidate Config.window atWork.div 0xff) = false :=
  ⟨rfl, by simp, by decide +kernel, by decide +kernel⟩

/-- 227 ahead and 30 behind. -/
theorem witness_CountersOutsideTheReachAreNeverTried :
    226 < ((0x1ff + 227 : Counter) - 0x1ff).toNat ∧ 29 < ((0x1ff : Counter) - (0x1ff + 227)).toNat ∧
      226 < ((0x1ff - 30 : Counter) - 0x1ff).toNat ∧ 29 < ((0x1ff : Counter) - (0x1ff - 30)).toNat := by
  decide

/-- A tag that does not verify at the candidate of a header byte: the recomputed one, its first byte
moved by 1. -/
def wrongTag (s : State) (h : Byte) : Tag :=
  let tag := (ocbDec Config.port s.key (le16 (candidate Config.window s.div h)) []).2
  #v[tag[0] + 1, tag[1], tag[2]]

theorem wrongTag_fails (s : State) (h : Byte) :
    ocbVerify Config.port s.key (le16 (candidate Config.window s.div h)) (wrongTag s h) [] =
      none := by
  rw [ocbVerify]
  simp only
  rw [if_neg fun hd => ?_]
  have h₀ := (tagDiff_eq_zero.mp hd).1
  simp [truncateTag, wrongTag] at h₀

/-- 227 ahead (late candidate, unseen), 255 ahead (late candidate, seen) and 30 behind (resync). -/
theorem witness_OutOfReachPacketsNeverMoveDiv :
    atWork.keyValid = true ∧
      (∀ q ∈ [(0x1ff + 227 : Counter), 0x1ff + 255, 0x1ff - 30].map fun p =>
          (p, wrongTag atWork (low p), ([] : List Byte)),
        226 < (q.1 - atWork.div).toNat ∧ 29 < (atWork.div - q.1).toNat ∧
          q.2.2.length ≤ Config.maxPlain ∧
          ocbVerify Config.port atWork.key (le16 (candidate Config.window atWork.div (low q.1)))
            q.2.1 q.2.2 = none) ∧
      seen atWork (candidate Config.window atWork.div 0xe2) = false ∧
      seen atWork (candidate Config.window atWork.div 0xfe) = true := by
  have h : ∀ p ∈ [(0x1ff + 227 : Counter), 0x1ff + 255, 0x1ff - 30],
      226 < (p - 0x1ff).toNat ∧ 29 < (0x1ff - p).toNat := by
    simp only [List.forall_mem_cons, List.not_mem_nil, false_imp_iff, implies_true, and_true]
    decide
  refine ⟨rfl, fun q hq => ?_, by decide +kernel, by decide +kernel⟩
  obtain ⟨p, hp, rfl⟩ := List.mem_map.mp hq
  exact ⟨(h p hp).1, (h p hp).2, Nat.zero_le _, wrongTag_fails atWork (low p)⟩

theorem witness_SetKeyInstallsAndOrdersItsErrors :
    (¬ ∃ k e d : List Byte, k.length ≤ 255 ∧ e.length ≤ 255 ∧ d.length ≤ 255 ∧
      ([0x00, 0x00] : List Byte) = BitVec.ofNat 8 k.length :: k ++ BitVec.ofNat 8 e.length :: e ++
        BitVec.ofNat 8 d.length :: d) ∧
      (List.replicate 255 (0 : Byte)).length ≤ 255 ∧ (k8.take 15).length ≠ 16 ∧ k8.length = 16 ∧
      ((image 0x1e).take 8).length ≠ 16 ∧ (0x00 :: image 0x1e).length ≠ 16 := by
  refine ⟨?_, by rw [List.length_replicate], by decide, by decide, by decide, by decide⟩
  rintro ⟨k, e, d, -, -, -, h⟩
  have := congrArg List.length h
  simp at this
  omega

theorem witness_NewInstallsTheDraw :
    ([0x00] : List Byte) ≠ [] ∧
      { atWork with rng := [some draw, none] }.rng = some draw :: [none] ∧
      draw.toList = (blockOf k8).toList ++ (le16 (valLe (image 0x1e))).toList ++
        (le16 (valLe (image 0x1f))).toList ∧
      { atWork with rng := [none] }.rng = none :: [] :=
  ⟨by decide, rfl, by decide +kernel, rfl⟩

theorem witness_EncryptSealsUnderTheNextCounter :
    Config.maxPlain < (List.replicate (Config.maxPlain + 1) (0 : Byte)).length ∧
      (List.replicate Config.maxPlain (0 : Byte)).length ≤ Config.maxPlain ∧
      State.reset.keyValid = false ∧ atWork.keyValid = true ∧
      (0x200 : Counter) = atWork.eiv + 1 ∧
      ∃ (Ct : List Byte) (tagFull : Block),
        ocbEnc Config.port atWork.key (le16 0x200) (upTo 17) = (Ct, tagFull) :=
  ⟨by simp, by simp, rfl, rfl, rfl, _, _, rfl⟩

/-- The first two rows' hypotheses, and the distance u at the bounds of each class, with DIV's low
byte at 0xff: 0, 1, 2, 127, 128, 226, 227 and 255. -/
theorem witness_DecryptOutcomeTable :
    State.reset.keyValid = false ∧ atWork.keyValid = true ∧
      ([0x00, 0x00, 0x00] : List Byte).length < 4 ∧
      Config.maxPlain < (List.replicate (Config.maxPlain + 5) (0 : Byte)).length - 4 ∧
      (List.replicate Config.maxPlain (0 : Byte)).length ≤ Config.maxPlain ∧
      ([0xff, 0x00, 0x01, 0x7e, 0x7f, 0xe1, 0xe2, 0xfe] : List Byte).map
        (fun h => (h.toNat + 256 - atWork.div.toNat % 256) % 256) =
          [0, 1, 2, 127, 128, 226, 227, 255] ∧
      ∀ c : Counter, ∃ (pt : List Byte) (tagFull : Block),
        ocbDec Config.port atWork.key (le16 c) [] = (pt, tagFull) :=
  ⟨rfl, rfl, by decide, by simp, by simp, by decide, fun _ => ⟨_, _, rfl⟩⟩

/-- A genuine packet's answer, once the class of its header byte is known. -/
theorem genuine_answer (h info : Byte)
    (hs : seen atWork (candidate Config.window atWork.div h) = false)
    (hc : classCode (classOf Config.window (candidateDistance Config.window atWork.div h)) = info) :
    ∃ t : State, exec (.decrypt (genuine atWork h)) atWork = .next t ∧
      t.outbox = atWork.outbox ++ [⟨.ok, info, []⟩] := by
  refine ⟨_, genuine_accepted atWork h rfl hs, ?_⟩
  rw [answering_outbox, (applyAccept_frame _ _ _ _).2.2.2.2.1, hc]

/-- The table's rows beyond the checks: a seen candidate, and a genuine packet of each class. -/
theorem witness_DecryptOutcomeTable_rows :
    atWork.hist[0xfe] = some 0x1fe ∧
      (∃ t : State, exec (.decrypt (genuine atWork 0x00)) atWork = .next t ∧
        t.outbox = atWork.outbox ++ [⟨.ok, 0x00, []⟩]) ∧
      (∃ t : State, exec (.decrypt (genuine atWork 0xff)) atWork = .next t ∧
        t.outbox = atWork.outbox ++ [⟨.ok, 0x01, []⟩]) ∧
      (∃ t : State, exec (.decrypt (genuine atWork 0x7e)) atWork = .next t ∧
        t.outbox = atWork.outbox ++ [⟨.ok, 0x02, []⟩]) ∧
      (∃ t : State, exec (.decrypt (genuine atWork 0xe1)) atWork = .next t ∧
        t.outbox = atWork.outbox ++ [⟨.ok, 0x03, []⟩]) :=
  ⟨by decide +kernel, genuine_answer _ _ (by decide +kernel) (by decide +kernel),
    genuine_answer _ _ (by decide +kernel) (by decide +kernel),
    genuine_answer _ _ (by decide +kernel) (by decide +kernel),
    genuine_answer _ _ (by decide +kernel) (by decide +kernel)⟩

theorem witness_WirePacketLengths :
    (∃ (t : State) (r : Response), exec (.encrypt []) atWork = .next t ∧
      t.outbox = atWork.outbox ++ [r] ∧ r.status = .ok) ∧
    (∃ (t : State) (r : Response), exec (.decrypt (genuine atWork 0x00)) atWork = .next t ∧
      t.outbox = atWork.outbox ++ [r] ∧ r.status = .ok) := by
  refine ⟨⟨_, _, encrypt_empty_at_work, rfl, rfl⟩, ?_⟩
  obtain ⟨t, ht, ho⟩ := witness_DecryptOutcomeTable_rows.2.1
  exact ⟨t, _, ht, ho, rfl⟩

theorem witness_ReadRegReturnsTheRegister :
    ([] : List Byte).length ≠ 1 ∧ State.reset.keyValid = false ∧ atWork.keyValid = true ∧
      ((0x03 : Byte) = 0x03 ∧ (1 : EventCount) = atWork.good) ∧
      ((0x04 : Byte) = 0x04 ∧ (0 : EventCount) = atWork.late) ∧
      ((0x05 : Byte) = 0x05 ∧ (2 : EventCount) = atWork.lost) ∧
      ((0x06 : Byte) = 0x06 ∧ (0 : EventCount) = atWork.resync) ∧
      0x08 ≤ (0x08 : Byte).toNat ∧ 0x08 ≤ (0xff : Byte).toNat := by decide +kernel

theorem witness_KeylessCommandsIgnoreTheState :
    keyless (.gfZero []) = true ∧ ([0x01] : List Byte).length = ([0x02] : List Byte).length ∧
      (List.replicate Config.maxPlain (0 : Byte)).length ≤ Config.maxPlain ∧
      { atWork with rng := [some draw] }.rng = some draw :: [] ∧
      0x03 ≤ (0x03 : Byte).toNat ∧ (0x07 : Byte).toNat ≤ 0x07 ∧
      ∃ (t : State) (r : Response), exec (.readReg [0x07]) State.reset = .next t ∧
        t.outbox = [r] ∧ r.status = .ok :=
  ⟨rfl, rfl, by simp, rfl, by decide, by decide, _, _, rfl, rfl, rfl⟩

theorem witness_NotKeyedExactlyWithoutAKey :
    State.reset.keyValid = false ∧
      (List.replicate Config.maxPlain (0 : Byte)).length ≤ Config.maxPlain ∧
      (∃ (t : State) (r : Response), exec (.rwProbe [0x00]) State.reset = .next t ∧
        t.outbox = State.reset.outbox ++ [r] ∧ r.status = .notKeyed) ∧
      atWork.keyValid = true ∧ ∃ t : State, exec (.gfZero []) atWork = .next t :=
  ⟨rfl, by simp, ⟨_, _, rfl, rfl, rfl⟩, rfl, _, rfl⟩

theorem witness_ErrorsChangeNothing :
    ∃ (t : State) (r : Response), exec (.gfXor [0x01]) atWork = .next t ∧
      t.outbox = atWork.outbox ++ [r] ∧ r.status ≠ .ok :=
  ⟨_, _, rfl, rfl, by decide⟩

/-- The footprint's clauses: commands that install nothing, and ones that do. -/
theorem witness_WriteFootprints :
    installs (.gfZero []) = false ∧ installs (.setKey []) = true ∧
      (∃ t : State, exec (.gfZero []) atWork = .next t) ∧
      (∃ t : State, exec (.new []) { atWork with rng := [some draw] } = .next t) :=
  ⟨rfl, rfl, ⟨_, rfl⟩, ⟨_, rfl⟩⟩

theorem witness_RepeatedCommandsAreIdempotent :
    (∀ p : List Byte, Instr.gfZero [] ≠ .new p ∧ Instr.gfZero [] ≠ .encrypt p ∧
      Instr.gfZero [] ≠ .decrypt p) ∧
      ∃ t t' : State, exec (.gfZero []) atWork = .next t ∧ exec (.gfZero []) t = .next t' :=
  ⟨by simp, _, _, rfl, rfl⟩

theorem witness_KeyIsNeverReadBack :
    (∀ p : List Byte, Instr.rwProbe [0x00] ≠ .encrypt p ∧ Instr.rwProbe [0x00] ≠ .decrypt p) ∧
      ∃ t : State, exec (.rwProbe [0x00]) atWork = .next t :=
  ⟨by simp, _, rfl⟩

/-- The invariant at a keyed state with a counter in its history and a response returned. -/
theorem witness_StepKeepsTheInvariant :
    let s : State := { atWork with
      outbox := [⟨.ok, 0x00, []⟩], inbox := [.frame [0x10, 0x01, 0x00, 0x5a]] }
    Inv s ∧ ∃ t : State, step s = .next t := by
  refine ⟨⟨?_, fun h => absurd h (by decide), ?_⟩, _, rfl⟩
  · intro i hi c hc
    change (emptyHist.set 0xfe (some 0x1fe))[i] = some c at hc
    rw [Vector.getElem_set] at hc
    split at hc
    · injection hc with hc
      subst hc
      rename_i h
      exact h ▸ by decide
    · simp [emptyHist] at hc
  · intro r hr
    have hr : r ∈ [(⟨.ok, 0x00, []⟩ : Response)] := hr
    rw [List.mem_singleton] at hr
    subst hr
    exact ⟨by decide, by decide, fun h => absurd rfl h⟩

/-- A sender and a receiver at the distances −29, 1 and 226: the last hypotheses for each. -/
theorem witness_PairedPacketsAreAccepted :
    atWork.keyValid = true ∧ (List.replicate Config.maxPlain (0 : Byte)).length ≤ Config.maxPlain ∧
      (atWork.eiv + 1 = (0x21d : Counter) + BitVec.ofInt 128 (-29) ∧
        seen { atWork with div := 0x21d } (atWork.eiv + 1) = false) ∧
      (atWork.eiv + 1 = atWork.div + BitVec.ofInt 128 1 ∧ seen atWork (atWork.eiv + 1) = false) ∧
      (atWork.eiv + 1 = (0x11e : Counter) + BitVec.ofInt 128 226 ∧
        seen { atWork with div := 0x11e } (atWork.eiv + 1) = false) :=
  ⟨rfl, by simp, ⟨by decide +kernel, by decide +kernel⟩, ⟨by decide +kernel, by decide +kernel⟩,
    by decide +kernel, by decide +kernel⟩

theorem witness_ReorderedPacketsAreAccepted :
    atWork.keyValid = true ∧ atWork.div = atWork.eiv ∧
      ([0x01] : List Byte).length ≤ Config.maxPlain ∧ seen atWork (atWork.eiv + 1) = false ∧
      seen atWork (atWork.eiv + 2) = false ∧ seen atWork (atWork.eiv + 3) = false ∧
      atWork.lost + 1 ≠ 0 :=
  ⟨rfl, rfl, Nat.le_trans (by decide) (Nat.le_add_left 512 _), by decide +kernel, by decide +kernel,
    by decide +kernel, by decide⟩

/-- A late packet 29 behind, at the end of LATE_MAX, and an ENCRYPT after it. -/
theorem witness_AcceptedCountersAreReplays :
    let c := candidate Config.window atWork.div 0xe2
    ∃ (t u : State) (r : Response), exec (.decrypt (genuine atWork 0xe2)) atWork = .next t ∧
      t.outbox = atWork.outbox ++ [r] ∧ r.status = .ok ∧
      (∀ i ∈ [Instr.encrypt []], installs i = false) ∧ [Instr.encrypt []].length ≤ 2 ^ 100 ∧
      runCommands [.encrypt []] t = .next u ∧ (u.div - c).toNat = 29 ∧
      ([] : List Byte).length ≤ Config.maxPlain := by
  refine ⟨_, _, _, genuine_accepted atWork 0xe2 rfl (by decide +kernel),
    congrArg (· ++ _) (applyAccept_frame _ _ _ _).2.2.2.2.1, rfl, by decide, by decide,
    by rw [runCommands, exec_eq_perform]; rfl, ?_, Nat.zero_le _⟩
  decide +kernel

end Sys2Proof.Tests
end

section
/-! PROOFS. Encoding (30_encoding.md): what an illegal encoding does (R66) and how long the wire
packets are (R64). -/

namespace Sys2Proof.Machine

/-! ### Reserved opcodes -/

/-- A whole frame with an unlisted OPC decodes to no command. -/
theorem decode_reserved {opc lo hi : Byte} {p : List Byte} (hopc : opc ∉ listedOpcodes)
    (hlen : p.length = plen lo hi) :
    decode (opc :: lo :: hi :: p) = .error (.reservedOpcode opc) := by
  rw [decode_whole hlen, commandOf_eq_none.mpr hopc]

theorem accepted_of_inbox_cons {s : State} {x : HostInput} {rest : List HostInput}
    (h : s.inbox = x :: rest) : accepted s = { s with inbox := rest } := by
  simp only [accepted, h, List.tail_cons]

/-- A step on a frame that decodes to no command. -/
theorem step_of_decode_error {s : State} {bytes : List Byte} {rest : List HostInput}
    {e : DecodeError} (hin : s.inbox = .frame bytes :: rest) (hd : decode bytes = .error e) :
    step s = undecoded e { s with inbox := rest } := by
  simp only [step, hin, hd, accepted_of_inbox_cons hin]

theorem undecoded_reservedOpcode (opc : Byte) (s : State) :
    undecoded (.reservedOpcode opc) s = .next (s.raising .illegalCommand) := rfl

/-! ### Broken payload layouts -/

/-- A SET_KEY payload that is not three length-prefixed fields yields no operands. -/
theorem setKeyOperands_none {maxPlain : Nat} {p : List Byte} (h : ¬ LayoutOk maxPlain (.setKey p)) :
    setKeyOperands p = none := by
  cases hp : setKeyOperands p with
  | none => rfl
  | some fields =>
    obtain ⟨k, e, d⟩ := fields
    exact absurd ⟨k, e, d, setKeyOperands_some hp⟩ h

/-- A payload that breaks its opcode's layout has no effect but the response IllegalCommand, whatever
the parameters are. -/
theorem perform_of_not_layoutOk {P : Params} {i : Instr} (s : State)
    (h : ¬ LayoutOk P.maxPlain i) : perform P i s = s.raising .illegalCommand := by
  rw [← raise_eq_raising]
  cases i with
  | gfZero p => exact absurd trivial h
  | gfXor p =>
    have hodd : p.length % 2 = 1 := Nat.mod_two_ne_zero.mp h
    simp only [perform, gfXorCommand, xorOperands_odd hodd]
  | gfDouble p => simp only [perform, gfDoubleCommand, blockOperand_none h]
  | gfTriple p => simp only [perform, gfTripleCommand, blockOperand_none h]
  | ocbEncrypt p =>
    have hlen : p.length < 32 ∨ P.maxPlain < p.length - 32 := by
      simp only [LayoutOk] at h
      omega
    simp only [perform, ocbEncryptCommand, ocbEncryptOperands_none hlen]
  | ocbDecrypt p =>
    have hlen : p.length < 35 ∨ P.maxPlain < p.length - 35 := by
      simp only [LayoutOk] at h
      omega
    simp only [perform, ocbDecryptCommand, ocbDecryptOperands_none hlen]
  | setKey p => simp only [perform, setKeyCommand, setKeyOperands_none h]
  | new p =>
    cases p with
    | nil => exact absurd rfl h
    | cons b bs => rfl
  | encrypt p => exact if_neg h
  | decrypt p => exact absurd trivial h
  | rwProbe p => simp only [perform, rwProbeCommand, byteOperand_none h]
  | readReg p => simp only [perform, readRegCommand, byteOperand_none h]

/-- Settles O6: a reserved OPC through `decode_reserved`, a broken layout through
`perform_of_not_layoutOk`. -/
theorem illegalEncodingsRaiseIllegalCommand :
    Obligations.IllegalEncodingsRaiseIllegalCommand := by
  refine ⟨fun s opc lo hi payload rest hopc hlen hin => ?_, fun i s h => ?_⟩
  · rw [step_of_decode_error hin (decode_reserved hopc hlen), undecoded_reservedOpcode]
  · rw [exec_eq_perform, perform_of_not_layoutOk (P := Config.params) s h]

/-! ### Lengths of wire packets -/

@[simp] theorem wire_length (h : Byte) (tagFull : Block) (Ct : List Byte) :
    (wire h tagFull Ct).length = Ct.length + 4 := by
  simp only [wire, List.length_cons, List.length_append, Vector.length_toList]
  omega

/-- Sealing adds the header byte and the three tag bytes. -/
theorem sealPacket_length (π : PermPort) (K : Key) (c : Counter) (Pt : List Byte) :
    (sealPacket π K c Pt).length = Pt.length + 4 := by
  simp only [sealPacket, wire_length, ocbEnc_length]

/-- The response of a raise carries the raised status. -/
theorem status_of_raising {s : State} {e : Status} {r : Response}
    (h : (s.raising e).outbox = s.outbox ++ [r]) : r.status = e :=
  congrArg Response.status (response_unique rfl h)

section
variable {s t : State} {r : Response}

/-- Of the cases of `perform_cases`, ENCRYPT answers OK only with a sealed packet. -/
theorem encrypt_ok_length {Pt : List Byte} (hexec : exec (.encrypt Pt) s = .next t)
    (hout : t.outbox = s.outbox ++ [r]) (hok : r.status = .ok) :
    r.payload.length = Pt.length + 4 := by
  obtain rfl := perform_of_exec hexec
  rcases perform_cases (.encrypt Pt) s rfl with
    ⟨e, he, ht⟩ | ⟨_, _, _, hne, _⟩ | ⟨p, hi, _, _, ht⟩ | ⟨_, _, _, _, _, _, _, _, _, hi, _⟩
  · exact absurd ((status_of_raising (ht ▸ hout)).symm.trans hok) he
  · exact absurd rfl (hne Pt)
  · injection hi with hp
    rw [ht] at hout
    rw [response_unique rfl hout, sealPacket_length, hp]
  · exact nomatch hi

/-- Of the cases of `perform_cases`, DECRYPT answers OK only with the plaintext of a verified packet. -/
theorem decrypt_ok_length {w : List Byte} (hexec : exec (.decrypt w) s = .next t)
    (hout : t.outbox = s.outbox ++ [r]) (hok : r.status = .ok) :
    r.payload.length + 4 = w.length := by
  obtain rfl := perform_of_exec hexec
  rcases perform_cases (.decrypt w) s rfl with
    ⟨e, he, ht⟩ | ⟨_, _, _, _, hne, _⟩ | ⟨_, hi, _⟩ |
    ⟨h, t₀, t₁, t₂, ct, pt, c, dist, k, hi, _, _, _, _, _, _, hver, ht⟩
  · exact absurd ((status_of_raising (ht ▸ hout)).symm.trans hok) he
  · exact absurd rfl (hne w)
  · exact nomatch hi
  · injection hi with hw
    rw [ht] at hout
    obtain ⟨-, -, -, -, hkept, -⟩ := applyAccept_frame c dist k s
    have hr := response_unique hkept hout
    calc r.payload.length + 4 = pt.length + 4 := by rw [hr]
      _ = ct.length + 4 := by rw [ocbVerify_length hver]
      _ = w.length := by rw [hw]; rfl

end

/-- Settles O43, one lemma per direction. -/
theorem wirePacketLengths : Obligations.WirePacketLengths :=
  ⟨fun _ _ _ _ => encrypt_ok_length, fun _ _ _ _ => decrypt_ok_length⟩

end Sys2Proof.Machine
end

section
/-! PROOFS. The field's laws (40_galois_field.md): the bytes of a block as one number, `dbl` as
arithmetic on that number (R74), its linearity and its inverse (R78), and the laws of `xorb`. -/

namespace Sys2Proof.Machine

/-! ### The number of a block -/

theorem valBe_eq_valLeNat_reverse (l : List Byte) : valBe l = valLeNat l.reverse := by
  induction l using List.reverseRecOn with
  | nil => rfl
  | append_singleton l b ih =>
    rw [List.reverse_append, List.reverse_singleton, List.singleton_append, valLeNat, ← ih]
    simp only [valBe, List.foldl_append, List.foldl_cons, List.foldl_nil]
    omega

theorem valBe_block_lt (X : Block) : valBe X.toList < 2 ^ 128 := by
  have h := valLeNat_lt X.toList.reverse
  rw [← valBe_eq_valLeNat_reverse, List.length_reverse, Vector.length_toList] at h
  exact h

/-- Byte `15 - i` of a block is digit `i` of its number. -/
theorem toNat_getElem_valBe (X : Block) (i : Nat) (h : i < 16) :
    X[15 - i].toNat = valBe X.toList / 256 ^ i % 256 := by
  rw [valBe_eq_valLeNat_reverse, ← toNat_getElem_valLeNat _ _ (by simpa using h)]
  simp [List.getElem_reverse]

/-- Bit `n` of the number stands in byte `15 - n / 8`. -/
theorem testBit_valBe (X : Block) (n : Nat) (h : n < 128) :
    (valBe X.toList).testBit n = X[15 - n / 8].getLsbD (n % 8) := by
  rw [BitVec.getLsbD, toNat_getElem_valBe X (n / 8) (by omega), show 256 = 2 ^ 8 from rfl,
    ← pow_mul, Nat.testBit_mod_two_pow, Nat.testBit_div_two_pow, Nat.mod_add_div]
  simp [Nat.mod_lt]

theorem testBit_valBe_of_le (X : Block) {n : Nat} (h : 128 ≤ n) :
    (valBe X.toList).testBit n = false :=
  Nat.testBit_lt_two_pow ((valBe_block_lt X).trans_le (Nat.pow_le_pow_right two_pos h))

/-- A block's number is `v` when their 128 bits agree. -/
theorem valBe_eq_of_testBit {X : Block} {v : Nat} (hv : v < 2 ^ 128)
    (h : ∀ n < 128, (valBe X.toList).testBit n = v.testBit n) : valBe X.toList = v := by
  refine Nat.eq_of_testBit_eq fun n => ?_
  rcases Nat.lt_or_ge n 128 with hn | hn
  · exact h n hn
  · rw [testBit_valBe_of_le X hn,
      Nat.testBit_lt_two_pow (hv.trans_le (Nat.pow_le_pow_right two_pos hn))]

theorem valBe_toList_injective : Function.Injective fun X : Block => valBe X.toList := by
  intro X Y h
  refine Vector.ext fun i hi => BitVec.eq_of_toNat_eq ?_
  have hX := toNat_getElem_valBe X (15 - i) (by omega)
  have hY := toNat_getElem_valBe Y (15 - i) (by omega)
  simp only [show 15 - (15 - i) = i by omega] at hX hY h
  rw [hX, hY, h]

theorem finite_block : Finite Block :=
  Finite.of_injective (fun X => (⟨valBe X.toList, valBe_block_lt X⟩ : Fin (2 ^ 128)))
    fun _ _ h => valBe_toList_injective (Fin.mk.inj h)

theorem valBe_xorBlock (A B : Block) :
    valBe (xorBlock A B).toList = valBe A.toList ^^^ valBe B.toList := by
  refine valBe_eq_of_testBit (Nat.xor_lt_two_pow (valBe_block_lt A) (valBe_block_lt B))
    fun n hn => ?_
  rw [Nat.testBit_xor, testBit_valBe _ n hn, testBit_valBe A n hn, testBit_valBe B n hn,
    getElem_xorBlock _ _ _ (by omega), BitVec.getLsbD_xor]

/-! ### Doubling -/

theorem getElem_dbl (X : Block) (i : Nat) (h : i < 15) :
    (dbl X)[i] = (X[i] <<< 1) ||| (X[i + 1] >>> 7) := by
  simp [dbl, h]

/-- The carry out of bit 127 is byte 0's top bit, so its product with `0x87` is a choice. -/
theorem carry_mul (b : Byte) : (b >>> 7) * 0x87#8 = if 128 ≤ b.toNat then 0x87 else 0x00 := by
  revert b
  decide

theorem getElem_dbl_last (X : Block) :
    (dbl X)[15] = (X[15] <<< 1) ^^^ (if 128 ≤ X[0].toNat then 0x87 else 0x00) := by
  rw [← carry_mul]
  simp [dbl]

/-- `dbl` on the number of a block (40_galois_field.md R74). -/
def dblNum (v : Nat) : Nat := (2 * v % 2 ^ 128) ^^^ (if 2 ^ 127 ≤ v then 0x87 else 0)

theorem top_byte_iff (X : Block) : 128 ≤ X[0].toNat ↔ 2 ^ 127 ≤ valBe X.toList := by
  have h₀ := toNat_getElem_valBe X 15 (by omega)
  have hlt := valBe_block_lt X
  simp only [Nat.sub_self] at h₀
  omega

theorem dblNum_lt (v : Nat) : dblNum v < 2 ^ 128 :=
  Nat.xor_lt_two_pow (Nat.mod_lt _ (by decide)) (by split <;> decide)

theorem testBit_two_mul_succ (v n : Nat) : (2 * v).testBit (n + 1) = v.testBit n := by
  rw [Nat.testBit_succ, Nat.mul_div_cancel_left v two_pos]

theorem testBit_0x87_of_le {n : Nat} (h : 8 ≤ n) : Nat.testBit 0x87 n = false :=
  Nat.testBit_lt_two_pow ((by decide : 0x87 < 2 ^ 8).trans_le (Nat.pow_le_pow_right two_pos h))

theorem getLsbD_shiftLeft_one (a : Byte) (j : Nat) (h : j < 8) :
    (a <<< 1).getLsbD j = if j = 0 then false else a.getLsbD (j - 1) := by
  cases j with
  | zero => simp
  | succ j =>
    rw [BitVec.getLsbD_shiftLeft, if_neg j.succ_ne_zero, decide_eq_true h]
    simp

/-- A byte shifted left by one bit, with the next byte's top bit coming in below. -/
theorem getLsbD_shift_in (a b : Byte) (j : Nat) (h : j < 8) :
    ((a <<< 1) ||| (b >>> 7)).getLsbD j = if j = 0 then b.getLsbD 7 else a.getLsbD (j - 1) := by
  rw [BitVec.getLsbD_or, getLsbD_shiftLeft_one a j h, BitVec.getLsbD_ushiftRight]
  cases j with
  | zero => rfl
  | succ j => simp [BitVec.getLsbD_of_ge b (7 + (j + 1)) (by omega)]

/-- Where a bit of the doubled number comes from: the byte's own next lower bit, or for the lowest bit
of a byte the top bit of the byte after it. -/
theorem testBit_two_mul_valBe (X : Block) (k : Nat) (h : k + 1 < 128) :
    (2 * valBe X.toList).testBit (k + 1) =
      if (k + 1) % 8 = 0 then X[15 - k / 8].getLsbD 7
      else X[15 - (k + 1) / 8].getLsbD ((k + 1) % 8 - 1) := by
  rw [testBit_two_mul_succ, testBit_valBe X k (by omega)]
  split
  · rw [show k % 8 = 7 by omega]
  · rw [show (k + 1) % 8 - 1 = k % 8 by omega]
    simp only [show (k + 1) / 8 = k / 8 by omega]

/-- The bits of `dbl X` above the lowest byte are those of the doubled number. -/
theorem testBit_valBe_dbl_high (X : Block) (n : Nat) (h₈ : 8 ≤ n) (h : n < 128) :
    (valBe (dbl X).toList).testBit n = (2 * valBe X.toList).testBit n := by
  obtain ⟨k, rfl⟩ : ∃ k, n = k + 1 := ⟨n - 1, by omega⟩
  rw [testBit_valBe _ _ h, getElem_dbl X _ (by omega),
    getLsbD_shift_in _ _ _ (Nat.mod_lt _ (by decide)), testBit_two_mul_valBe X k h]
  split
  · simp only [show 15 - (k + 1) / 8 + 1 = 15 - k / 8 by omega]
  · rfl

/-- The bits of the lowest byte of `dbl X` are those of the doubled number with the carry
folded in. -/
theorem testBit_valBe_dbl_low (X : Block) (n : Nat) (h : n < 8) :
    (valBe (dbl X).toList).testBit n = ((2 * valBe X.toList).testBit n ^^
      (if 2 ^ 127 ≤ valBe X.toList then 0x87 else 0).testBit n) := by
  have hfold : (if 128 ≤ X[0].toNat then 0x87 else 0x00 : Byte).getLsbD n =
      (if 2 ^ 127 ≤ valBe X.toList then 0x87 else 0).testBit n := by
    simp only [← top_byte_iff]
    split <;> rfl
  rw [testBit_valBe _ n (by omega)]
  simp only [Nat.div_eq_of_lt h, Nat.mod_eq_of_lt h, Nat.sub_zero]
  rw [getElem_dbl_last, BitVec.getLsbD_xor, hfold, getLsbD_shiftLeft_one _ n h]
  cases n with
  | zero => simp
  | succ k =>
    rw [testBit_two_mul_valBe X k (by omega)]
    simp only [Nat.div_eq_of_lt h, Nat.mod_eq_of_lt h, Nat.sub_zero, k.succ_ne_zero, if_false]

theorem valBe_dbl (X : Block) : valBe (dbl X).toList = dblNum (valBe X.toList) := by
  refine valBe_eq_of_testBit (dblNum_lt _) fun n hn => ?_
  rw [dblNum, Nat.testBit_xor, Nat.testBit_mod_two_pow, decide_eq_true hn, Bool.true_and]
  rcases Nat.lt_or_ge n 8 with h₈ | h₈
  · exact testBit_valBe_dbl_low X n h₈
  · have hfold : (if 2 ^ 127 ≤ valBe X.toList then 0x87 else 0).testBit n = false := by
      split
      · exact testBit_0x87_of_le h₈
      · exact Nat.zero_testBit n
    rw [testBit_valBe_dbl_high X n h₈ hn, hfold, Bool.xor_false]

/-! ### Linearity and inverses -/

theorem top_iff_testBit {v : Nat} (hv : v < 2 ^ 128) : 2 ^ 127 ≤ v ↔ v.testBit 127 = true := by
  rw [Nat.testBit_eq_decide_div_mod_eq, decide_eq_true_iff]
  omega

theorem two_mul_xor (v w : Nat) : 2 * (v ^^^ w) = (2 * v) ^^^ (2 * w) := by
  have h : (v ^^^ w) <<< 1 = v <<< 1 ^^^ w <<< 1 := Nat.shiftLeft_xor_distrib
  simpa only [Nat.shiftLeft_eq, pow_one, Nat.mul_comm _ 2] using h

theorem dblNum_xor {v w : Nat} (hv : v < 2 ^ 128) (hw : w < 2 ^ 128) :
    dblNum (v ^^^ w) = dblNum v ^^^ dblNum w := by
  have hfold : ∀ a b : Bool, (if (a ^^ b) = true then 0x87 else 0) =
      (if a = true then 0x87 else 0) ^^^ (if b = true then 0x87 else 0) := by decide
  simp only [dblNum, top_iff_testBit hv, top_iff_testBit hw,
    top_iff_testBit (Nat.xor_lt_two_pow hv hw), Nat.testBit_xor, hfold, two_mul_xor,
    Nat.xor_mod_two_pow]
  ac_rfl

/-- Halving undoes `dblNum` (40_galois_field.md R78): an odd value had `0x87` folded in. -/
theorem halve_dblNum {v : Nat} (hv : v < 2 ^ 128) :
    v = if dblNum v % 2 = 1 then (dblNum v ^^^ 0x87) / 2 + 2 ^ 127 else dblNum v / 2 := by
  by_cases htop : 2 ^ 127 ≤ v
  · have hd : dblNum v = (2 * v - 2 ^ 128) ^^^ 0x87 := by
      rw [dblNum, if_pos htop, show 2 * v % 2 ^ 128 = 2 * v - 2 ^ 128 by omega]
    have hodd : dblNum v % 2 = 1 := by
      rw [hd, Nat.xor_mod_two_eq_one]
      omega
    rw [if_pos hodd, hd, Nat.xor_xor_cancel_right]
    omega
  · have hd : dblNum v = 2 * v := by
      rw [dblNum, if_neg htop, Nat.xor_zero, Nat.mod_eq_of_lt (by omega)]
    rw [hd, if_neg (by omega)]
    omega

/-- No odd byte stays as it is when it is halved as R78 halves a block. -/
theorem ne_halve_odd_byte (b : Byte) :
    b.toNat % 2 = 1 → b.toNat ≠ (b.toNat ^^^ 0x87) / 2 + 128 := by
  revert b
  decide

/-- Multiplication by x fixes 0 alone: a value that halving leaves as it is would have, if odd, a low
byte that halving leaves as it is too, and there is none. -/
theorem eq_zero_of_dblNum_eq {v : Nat} (hv : v < 2 ^ 128) (h : dblNum v = v) : v = 0 := by
  have hhalf := halve_dblNum hv
  rw [h] at hhalf
  split at hhalf
  next hodd =>
    have hlow := ne_halve_odd_byte (BitVec.ofNat 8 v)
    simp only [BitVec.toNat_ofNat, show 2 ^ 8 = 256 from rfl] at hlow
    have hmod : (v ^^^ 0x87) % 256 = v % 256 ^^^ 0x87 := Nat.xor_mod_two_pow (n := 8)
    have hdiv : (v ^^^ 0x87) / 256 = v / 256 ^^^ 0 := Nat.xor_div_two_pow (n := 8)
    rw [Nat.xor_zero] at hdiv
    omega
  next => omega

theorem dbl_xorBlock (A B : Block) : dbl (xorBlock A B) = xorBlock (dbl A) (dbl B) :=
  valBe_toList_injective <| by
    simp only [valBe_dbl, valBe_xorBlock, dblNum_xor (valBe_block_lt A) (valBe_block_lt B)]

theorem valBe_tri (X : Block) :
    valBe (tri X).toList = dblNum (valBe X.toList) ^^^ valBe X.toList := by
  rw [tri, valBe_xorBlock, valBe_dbl]

theorem tri_xorBlock (A B : Block) : tri (xorBlock A B) = xorBlock (tri A) (tri B) :=
  valBe_toList_injective <| by
    simp only [valBe_tri, valBe_xorBlock, dblNum_xor (valBe_block_lt A) (valBe_block_lt B)]
    ac_rfl

/-- R78's inverse of `dbl`, on the number of the block. -/
theorem valBe_eq_halve_dbl (X : Block) : valBe X.toList =
    if valBe (dbl X).toList % 2 = 1 then (valBe (dbl X).toList ^^^ 0x87) / 2 + 2 ^ 127
    else valBe (dbl X).toList / 2 := by
  rw [valBe_dbl]
  exact halve_dblNum (valBe_block_lt X)

theorem dbl_injective : Function.Injective dbl := fun X Y h =>
  valBe_toList_injective <| by
    simp only
    rw [valBe_eq_halve_dbl X, valBe_eq_halve_dbl Y, h]

/-- Where `tri` takes one value twice, `dbl` fixes the difference. -/
theorem tri_injective : Function.Injective tri := by
  intro X Y h
  have hX := valBe_block_lt X
  have hY := valBe_block_lt Y
  have hnum : dblNum (valBe X.toList) ^^^ valBe X.toList =
      dblNum (valBe Y.toList) ^^^ valBe Y.toList := by
    rw [← valBe_tri, ← valBe_tri, h]
  have hfix : dblNum (valBe X.toList ^^^ valBe Y.toList) = valBe X.toList ^^^ valBe Y.toList := by
    rw [dblNum_xor hX hY, ← Nat.xor_eq_zero_iff]
    calc _ = (dblNum (valBe X.toList) ^^^ valBe X.toList) ^^^
          (dblNum (valBe Y.toList) ^^^ valBe Y.toList) := by ac_rfl
      _ = 0 := by rw [hnum, Nat.xor_self]
  exact valBe_toList_injective
    (Nat.xor_eq_zero_iff.mp (eq_zero_of_dblNum_eq (Nat.xor_lt_two_pow hX hY) hfix))

/-- On the finitely many blocks an injection is a bijection. -/
theorem bijective_of_injective_block {f : Block → Block} (h : Function.Injective f) :
    Function.Bijective f :=
  haveI := finite_block
  Finite.injective_iff_bijective.mp h

/-! ### The exclusive-or of buffers -/

@[simp] theorem xorb_nil (b : List Byte) : xorb [] b = [] := rfl

@[simp] theorem xorb_nil_right (a : List Byte) : xorb a [] = [] := List.zipWith_nil_right

@[simp] theorem xorb_cons_cons (x y : Byte) (a b : List Byte) :
    xorb (x :: a) (y :: b) = (x ^^^ y) :: xorb a b := rfl

theorem getD_xorb {a b : List Byte} {i : Nat} (ha : i < a.length) (hb : i < b.length) :
    (xorb a b).getD i 0 = a.getD i 0 ^^^ b.getD i 0 := by
  have hi : i < (xorb a b).length := by
    rw [xorb_length]
    omega
  rw [List.getD_eq_getElem _ _ hi, List.getD_eq_getElem _ _ ha, List.getD_eq_getElem _ _ hb]
  exact List.getElem_zipWith

theorem xorb_assoc (a b c : List Byte) : xorb (xorb a b) c = xorb a (xorb b c) := by
  induction a generalizing b c with
  | nil => rfl
  | cons x a ih =>
    cases b with
    | nil => simp
    | cons y b =>
      cases c with
      | nil => simp
      | cons z c => simp [ih, BitVec.xor_assoc]

theorem xorb_comm (a b : List Byte) : xorb a b = xorb b a :=
  List.zipWith_comm_of_comm BitVec.xor_comm

theorem xorb_self (a : List Byte) : xorb a a = List.replicate a.length 0 := by
  induction a with
  | nil => rfl
  | cons x a ih => simp [ih, List.replicate_succ]

theorem xorb_zeros (a : List Byte) : xorb a (List.replicate a.length 0) = a := by
  induction a with
  | nil => rfl
  | cons x a ih =>
    rw [List.length_cons, List.replicate_succ, xorb_cons_cons, ih]
    exact congrArg (· :: a) BitVec.xor_zero

/-- Settles O19, law by law. -/
theorem galoisFieldLaws : Obligations.GaloisFieldLaws :=
  ⟨dbl_xorBlock, tri_xorBlock, bijective_of_injective_block dbl_injective,
    bijective_of_injective_block tri_injective, valBe_eq_halve_dbl, xorb_assoc, xorb_comm, xorb_self,
    xorb_zeros⟩

end Sys2Proof.Machine
end

section
/-! PROOFS. What the four commands of GaloisFieldDoubler answer (40_galois_field.md R71 to R77). -/

namespace Sys2Proof.Machine

section
variable (s : State)

theorem exec_of_not_layoutOk {i : Instr} (h : ¬ LayoutOk Config.maxPlain i) :
    exec i s = .next (s.raising .illegalCommand) :=
  illegalEncodingsRaiseIllegalCommand.2 i s h

theorem exec_gfZero (p : List Byte) :
    exec (.gfZero p) s = .next (s.answering ⟨.ok, 0x00, List.replicate p.length 0⟩) := by
  rw [exec_eq_perform, perform, gfZeroCommand, complete_eq_answering, noInfo, zeroBytes]

theorem exec_gfXor {a b : List Byte} (h : a.length = b.length) :
    exec (.gfXor (a ++ b)) s = .next (s.answering ⟨.ok, 0x00, xorb a b⟩) := by
  simp only [exec_eq_perform, perform, gfXorCommand, xorOperands_append h, complete_eq_answering,
    noInfo]

theorem exec_gfDouble (X : Block) :
    exec (.gfDouble X.toList) s = .next (s.answering ⟨.ok, 0x00, (dbl X).toList⟩) := by
  simp only [exec_eq_perform, perform, gfDoubleCommand, blockOperand_toList, complete_eq_answering,
    noInfo]

theorem exec_gfTriple (X : Block) :
    exec (.gfTriple X.toList) s = .next (s.answering ⟨.ok, 0x00, (tri X).toList⟩) := by
  simp only [exec_eq_perform, perform, gfTripleCommand, blockOperand_toList, complete_eq_answering,
    noInfo]

end

theorem getElem_tri (X : Block) (i : Nat) (h : i < 16) : (tri X)[i] = (dbl X)[i] ^^^ X[i] :=
  getElem_xorBlock (dbl X) X i h

/-- Settles O14 by `exec_gfZero`. -/
theorem gfZeroReturnsZeroBytes : Obligations.GfZeroReturnsZeroBytes :=
  fun p s => ⟨rfl, exec_gfZero s p⟩

/-- Settles O15: an odd payload breaks the layout, equal halves give `xorb`, read by `getD_xorb`. -/
theorem gfXorCombinesTheHalves : Obligations.GfXorCombinesTheHalves := by
  refine fun s => ⟨fun p => ⟨rfl, fun hodd => ?_⟩, fun a b hlen => ⟨_, exec_gfXor s hlen, ?_, ?_⟩⟩
  · exact exec_of_not_layoutOk s (Nat.mod_two_ne_zero.mpr hodd)
  · rw [xorb_length, ← hlen, Nat.min_self]
  · exact fun i hi => getD_xorb hi (hlen ▸ hi)

/-- Settles O16: the bytes by `getElem_dbl`, the number by `valBe_dbl`. -/
theorem gfDoubleShiftsAndReduces : Obligations.GfDoubleShiftsAndReduces :=
  fun s => ⟨fun _ => ⟨rfl, fun h => exec_of_not_layoutOk s h⟩, fun X =>
    ⟨dbl X, exec_gfDouble s X, rfl, getElem_dbl X, getElem_dbl_last X, valBe_dbl X⟩⟩

/-- Settles O17 by `exec_gfTriple` and `getElem_tri`. -/
theorem gfTripleAddsTheDouble : Obligations.GfTripleAddsTheDouble :=
  fun s => ⟨fun _ => ⟨rfl, fun h => exec_of_not_layoutOk s h⟩, fun X =>
    ⟨tri X, exec_gfTriple s X, rfl, getElem_tri X⟩⟩

end Sys2Proof.Machine
end

section
/-! PROOFS. The field of GF_DOUBLE and GF_TRIPLE (40_galois_field.md R73): a number's bits as the
coefficients of a polynomial over GF(2), and `dbl` as multiplication by x in the quotient. -/

namespace Sys2Proof.Machine

open Polynomial

/-- The polynomial over GF(2) whose coefficient of `x^i` is bit `i` of `v`, for `i < n`. -/
noncomputable def bitPoly (n v : Nat) : (ZMod 2)[X] :=
  ∑ i ∈ Finset.range n, if v.testBit i then X ^ i else 0

theorem bitPoly_succ (n v : Nat) :
    bitPoly (n + 1) v = bitPoly n v + if v.testBit n then X ^ n else 0 :=
  Finset.sum_range_succ _ n

theorem bitPoly_zero (n : Nat) : bitPoly n 0 = 0 := by
  simp [bitPoly]

theorem bitPoly_xor (n v w : Nat) : bitPoly n (v ^^^ w) = bitPoly n v + bitPoly n w := by
  rw [bitPoly, bitPoly, bitPoly, ← Finset.sum_add_distrib]
  refine Finset.sum_congr rfl fun i _ => ?_
  rw [Nat.testBit_xor]
  cases v.testBit i <;> cases w.testBit i <;> simp [CharTwo.add_self_eq_zero]

/-- Doubling the number multiplies the polynomial by x. -/
theorem bitPoly_two_mul (n v : Nat) : bitPoly (n + 1) (2 * v) = X * bitPoly n v := by
  rw [bitPoly, Finset.sum_range_succ', bitPoly, Finset.mul_sum]
  simp [testBit_two_mul_succ, pow_succ']

theorem bitPoly_mod_two_pow (n v : Nat) : bitPoly n (v % 2 ^ n) = bitPoly n v := by
  refine Finset.sum_congr rfl fun i hi => ?_
  rw [Nat.testBit_mod_two_pow, decide_eq_true (Finset.mem_range.mp hi), Bool.true_and]

/-- Bits past the number's length add nothing. -/
theorem bitPoly_add_of_lt {k v : Nat} (h : v < 2 ^ k) (m : Nat) :
    bitPoly (k + m) v = bitPoly k v := by
  induction m with
  | zero => rfl
  | succ m ih =>
    have hbit : v.testBit (k + m) = false :=
      Nat.testBit_lt_two_pow (h.trans_le (Nat.pow_le_pow_right two_pos (Nat.le_add_right k m)))
    rw [← Nat.add_assoc, bitPoly_succ, ih, hbit]
    simp

theorem bitPoly_0x87 : bitPoly 128 0x87 = X ^ 7 + X ^ 2 + X + 1 := by
  have hbyte : bitPoly 8 0x87 = 1 + X + X ^ 2 + X ^ 7 := by
    simp [bitPoly, Finset.sum_range_succ, Nat.testBit]
  rw [bitPoly_add_of_lt (k := 8) (by decide) 120, hbyte]
  ring

/-- The polynomial that the field reduces by (40_galois_field.md R73); irreducible so that no check
that two terms agree unfolds its power 128 times. -/
@[irreducible] noncomputable def fieldPoly : (ZMod 2)[X] := X ^ 128 + X ^ 7 + X ^ 2 + X + 1

theorem fieldPoly_eq : fieldPoly = X ^ 128 + X ^ 7 + X ^ 2 + X + 1 := by
  unfold fieldPoly
  rfl

/-- What `x · A` exceeds `dbl(A)` by: nothing, or the reduction polynomial when bit 127 was set. -/
theorem X_mul_bitPoly {v : Nat} (hv : v < 2 ^ 128) :
    X * bitPoly 128 v - bitPoly 128 (dblNum v) =
      if v.testBit 127 then fieldPoly else 0 := by
  have hshift : X * bitPoly 128 v = bitPoly 128 (2 * v) + if v.testBit 127 then X ^ 128 else 0 := by
    rw [← bitPoly_two_mul, bitPoly_succ, testBit_two_mul_succ]
  rw [hshift, dblNum, bitPoly_xor, bitPoly_mod_two_pow, add_sub_add_left_eq_sub, CharTwo.sub_eq_add]
  simp only [top_iff_testBit hv]
  split
  · rw [bitPoly_0x87, fieldPoly_eq]
    ring
  · rw [bitPoly_zero, add_zero]

theorem dvd_X_mul_bitPoly {v : Nat} (hv : v < 2 ^ 128) :
    fieldPoly ∣ X * bitPoly 128 v - bitPoly 128 (dblNum v) := by
  rw [X_mul_bitPoly hv]
  split
  · exact dvd_rfl
  · exact dvd_zero _

/-- Settles O18: a block's polynomial is `bitPoly` of its number, on which `dbl` is `dblNum`; `tri` adds
the block itself on both sides. -/
theorem doublingIsMultiplicationByX : Obligations.DoublingIsMultiplicationByX := by
  intro poly hpoly A B
  have hbits : ∀ C : Block, poly C = bitPoly 128 (valBe C.toList) := hpoly
  have hadd : ∀ C D : Block, poly (xorBlock C D) = poly C + poly D := fun C D => by
    simp only [hbits, valBe_xorBlock, bitPoly_xor]
  have hdbl : fieldPoly ∣ X * poly A - poly (dbl A) := by
    simpa only [hbits, valBe_dbl] using dvd_X_mul_bitPoly (valBe_block_lt A)
  have htri : (X + 1) * poly A - poly (tri A) = X * poly A - poly (dbl A) := by
    rw [tri, hadd]
    ring
  rw [← fieldPoly_eq, htri]
  exact ⟨hdbl, hdbl, hadd A B⟩

end Sys2Proof.Machine
end

section
/-! PROOFS. The construction of OCBCore (41_ocb_core.md): the split of a message (R83), encryption
and decryption block by block (R84 to R90), verification (R92) and the round trip (R95). -/

namespace Sys2Proof.Machine

/-! ### The split of a message -/

/-- The final block is empty only for the empty message. -/
theorem tailLength_pos {L : Nat} (h : 1 ≤ L) : 1 ≤ tailLength L := by
  rw [tailLength, loopBlocks_eq]
  omega

/-- The final block holds what the main loop leaves. -/
theorem length_drop_loopBlocks (msg : List Byte) :
    (msg.drop (16 * loopBlocks msg.length)).length = tailLength msg.length :=
  List.length_drop

/-- Settles O20 from the bounds on `loopBlocks` and `tailLength`. -/
theorem blockSplitCoversTheMessage : Obligations.BlockSplitCoversTheMessage := by
  refine fun L => ⟨?_, fun h => if_pos h, fun h => ⟨loopBlocks_eq L, tailLength_pos h, ?_⟩⟩
  · exact Nat.add_sub_cancel' (sixteen_mul_loopBlocks_le L)
  · exact tailLength_le L

/-! ### Blocks in a row -/

/-- The bytes of the blocks `f 0` to `f (m − 1)`, one after the other: what a main loop puts out. -/
def joinBlocks (f : Nat → Block) (m : Nat) : List Byte :=
  (List.range m).flatMap fun i => (f i).toList

@[simp] theorem joinBlocks_zero (f : Nat → Block) : joinBlocks f 0 = [] := rfl

theorem joinBlocks_succ (f : Nat → Block) (m : Nat) :
    joinBlocks f (m + 1) = joinBlocks f m ++ (f m).toList := by
  simp [joinBlocks, List.range_succ]

@[simp] theorem joinBlocks_length (f : Nat → Block) (m : Nat) :
    (joinBlocks f m).length = 16 * m := by
  induction m with
  | zero => rfl
  | succ m ih => rw [joinBlocks_succ, List.length_append, ih, Vector.length_toList, Nat.mul_succ]

theorem drop_joinBlocks_append (f : Nat → Block) (m : Nat) (rest : List Byte) :
    (joinBlocks f m ++ rest).drop (16 * m) = rest :=
  List.drop_left' (joinBlocks_length f m)

/-- Block `i` of the row, whatever follows the row. -/
theorem block_joinBlocks_append (f : Nat → Block) {m i : Nat} (h : i < m) (rest : List Byte) :
    ((joinBlocks f m ++ rest).drop (16 * i)).take 16 = (f i).toList := by
  induction m generalizing rest with
  | zero => exact absurd h (Nat.not_lt_zero i)
  | succ m ih =>
    rw [joinBlocks_succ, List.append_assoc]
    rcases Nat.lt_succ_iff_lt_or_eq.mp h with hlt | rfl
    · exact ih hlt _
    · rw [drop_joinBlocks_append, List.take_left' Vector.length_toList]

/-! ### The final block -/

/-- Masking a short final block: its bytes are masked by the head of the pad, and the zeros it is
padded with let the pad's tail through (R89). -/
theorem toList_xorBlock_blockOf {l : List Byte} (h : l.length ≤ 16) (Pad : Block) :
    (xorBlock (blockOf l) Pad).toList =
      xorb l (Pad.toList.take l.length) ++ Pad.toList.drop l.length := by
  have hhead : l.length = (Pad.toList.take l.length).length := by simp [h]
  have htail : (Pad.toList.drop l.length).length = 16 - l.length := by simp
  calc (xorBlock (blockOf l) Pad).toList
      = xorb (l ++ List.replicate (16 - l.length) 0)
          (Pad.toList.take l.length ++ Pad.toList.drop l.length) := by
        rw [xorBlock_toList, toList_blockOf h, List.take_append_drop]
    _ = xorb l (Pad.toList.take l.length) ++
          xorb (List.replicate (16 - l.length) 0) (Pad.toList.drop l.length) :=
        List.zipWith_append hhead
    _ = xorb l (Pad.toList.take l.length) ++ Pad.toList.drop l.length := by
        rw [xorb_comm (List.replicate _ _), ← htail, xorb_zeros]

/-- A mask of the same length is its own inverse. -/
theorem xorb_cancel {a b : List Byte} (h : a.length = b.length) : xorb (xorb a b) b = a := by
  rw [xorb_assoc, xorb_self, ← h, xorb_zeros]

/-- Decryption's padded final block is encryption's: the plaintext residual and the pad's tail
(R85, R89). -/
theorem xorBlock_blockOf_masked {Pr : List Byte} (h : Pr.length ≤ 16) (Pad : Block) :
    xorBlock (blockOf (xorb Pr (Pad.toList.take Pr.length))) Pad =
      blockOf (Pr ++ Pad.toList.drop Pr.length) := by
  have hhead : Pr.length = (Pad.toList.take Pr.length).length := by simp [h]
  have hlen : (xorb Pr (Pad.toList.take Pr.length)).length = Pr.length := by
    rw [xorb_length, ← hhead, Nat.min_self]
  have hlist := toList_xorBlock_blockOf (hlen.le.trans h) Pad
  rw [hlen, xorb_cancel hhead] at hlist
  exact (blockOf_eq_of_toList hlist).symm

theorem eq_lengthBlock {r : Nat} {Λ : Block}
    (h : Λ.toList = List.replicate 15 0 ++ [BitVec.ofNat 8 (8 * r)]) : Λ = lengthBlock r :=
  (blockOf_eq_of_toList h).symm

/-! ### Encryption and decryption in closed form -/

section
variable {π : PermPort} {K : Key} {N : Block} {Δ : Nat → Block}

/-- `ocb_enc` in terms of the offsets `Δ`, the plaintext blocks, the pad and the padded
final block. -/
theorem ocbEnc_closed {Pt : List Byte} {m r : Nat} {P : Nat → Block} {Pad Tf : Block}
    (hm : m = loopBlocks Pt.length) (hr : r = tailLength Pt.length) (h₀ : Δ 0 = π.E K N)
    (hΔ : ∀ j, Δ (j + 1) = dbl (Δ j)) (hP : ∀ i, P i = blockOf ((Pt.drop (16 * i)).take 16))
    (hPad : Pad = padBlock (π.E K) r (Δ (m + 1)))
    (hTf : Tf = blockOf (Pt.drop (16 * m) ++ Pad.toList.drop r)) :
    ocbEnc π K N Pt =
      (joinBlocks (fun i => xorBlock (π.E K (xorBlock (P i) (Δ (i + 1)))) (Δ (i + 1))) m ++
        xorb (Pt.drop (16 * m)) (Pad.toList.take r),
      tagBlock (π.E K) (Δ (m + 1))
        (xorBlock ((List.range m).foldl (fun sum i => xorBlock sum (P i)) zeroBlock) Tf)) := by
  obtain rfl : P = fun i => blockOf ((Pt.drop (16 * i)).take 16) := funext hP
  subst hm hr hPad hTf
  simp only [ocbEnc, ← h₀, encLoop_closed _ Δ hΔ _ 0, ← hΔ, Nat.zero_add, joinBlocks]

/-- `ocb_dec` in terms of the offsets `Δ`, the recovered blocks, the pad and the padded
final block. -/
theorem ocbDec_closed {Ct : List Byte} {m r : Nat} {P : Nat → Block} {Pad Tf : Block}
    (hm : m = loopBlocks Ct.length) (hr : r = tailLength Ct.length) (h₀ : Δ 0 = π.E K N)
    (hΔ : ∀ j, Δ (j + 1) = dbl (Δ j))
    (hP : ∀ i, P i = xorBlock (π.Einv K (xorBlock (blockOf ((Ct.drop (16 * i)).take 16))
      (Δ (i + 1)))) (Δ (i + 1)))
    (hPad : Pad = padBlock (π.E K) r (Δ (m + 1)))
    (hTf : Tf = xorBlock (blockOf (Ct.drop (16 * m))) Pad) :
    ocbDec π K N Ct =
      (joinBlocks P m ++ Tf.toList.take r,
      tagBlock (π.E K) (Δ (m + 1))
        (xorBlock ((List.range m).foldl (fun sum i => xorBlock sum (P i)) zeroBlock) Tf)) := by
  obtain rfl : P = fun i => xorBlock (π.Einv K (xorBlock (blockOf ((Ct.drop (16 * i)).take 16))
      (Δ (i + 1)))) (Δ (i + 1)) := funext hP
  subst hm hr hPad hTf
  simp only [ocbDec, ← h₀, decLoop_closed _ Δ hΔ _ 0, ← hΔ, Nat.zero_add, joinBlocks]

end

/-- Settles O21: the closed form `ocbEnc_closed`, cut into blocks. -/
theorem encryptionBlockByBlock : Obligations.EncryptionBlockByBlock := by
  intro π K N Pt m r Δ P Λ Pad Tf hm hr h₀ hΔ hP hΛ hPad hTf
  rw [eq_lengthBlock hΛ] at hPad
  have hclosed := ocbEnc_closed hm (hr.trans (by rw [hm, tailLength])) h₀ hΔ hP hPad
    (blockOf_eq_of_toList hTf).symm
  refine ⟨ocbEnc_length π K N Pt, fun i hi => ?_, ?_, ?_⟩
  · rw [hclosed, block_joinBlocks_append _ hi]
  · rw [hclosed, drop_joinBlocks_append]
  · rw [hclosed, tagBlock]

/-- Settles O22: the closed form `ocbDec_closed`, cut into blocks; its padded final block is split
by `toList_xorBlock_blockOf`. -/
theorem decryptionBlockByBlock : Obligations.DecryptionBlockByBlock := by
  intro π K N Ct m r Δ P Λ Pad Tf hm hr h₀ hΔ hP hΛ hPad hTf
  rw [eq_lengthBlock hΛ] at hPad
  have hrt : r = tailLength Ct.length := hr.trans (by rw [hm, tailLength])
  have hlen : (Ct.drop (16 * m)).length = r := List.length_drop.trans hr.symm
  have hle : (Ct.drop (16 * m)).length ≤ 16 := by
    rw [hlen, hrt]
    exact tailLength_le _
  have htf : Tf = xorBlock (blockOf (Ct.drop (16 * m))) Pad := by
    rw [← Vector.toList_inj, hTf, xorBlock_toList, toList_blockOf hle, hlen]
  have hsplit : Tf.toList.drop r = Pad.toList.drop r := by
    rw [htf, toList_xorBlock_blockOf hle, hlen]
    exact List.drop_left' (by simp [hlen]; omega)
  have hclosed := ocbDec_closed hm hrt h₀ hΔ hP hPad htf
  refine ⟨ocbDec_length π K N Ct, fun i hi => ?_, ?_, ?_, ?_⟩
  · rw [hclosed, block_joinBlocks_append _ hi]
  · rw [hclosed, drop_joinBlocks_append]
  · rw [hclosed, drop_joinBlocks_append, ← hsplit, List.take_append_drop]
  · rw [hclosed, tagBlock]

/-! ### Verification -/

theorem tagDiff_eq_zero_iff_eq {a b : Tag} : tagDiff a b = 0 ↔ a = b := by
  refine tagDiff_eq_zero.trans ⟨fun ⟨h₀, h₁, h₂⟩ => Vector.ext fun i hi => ?_, fun h => by simp [h]⟩
  interval_cases i <;> assumption

/-- Verification compares the wire tag of the recomputed tag with the received one. -/
theorem ocbVerify_eq (π : PermPort) (K : Key) (N : Block) (T : Tag) (Ct : List Byte) :
    ocbVerify π K N T Ct =
      if truncateTag (ocbDec π K N Ct).2 = T then some (ocbDec π K N Ct).1 else none := by
  simp only [ocbVerify, tagDiff_eq_zero_iff_eq]

theorem truncateTag_eq_iff {B : Block} {T : Tag} :
    truncateTag B = T ↔ B[0] = T[0] ∧ B[1] = T[1] ∧ B[2] = T[2] := by
  rw [← tagDiff_eq_zero_iff_eq, tagDiff_eq_zero]
  simp [truncateTag]

theorem truncateTag_eq_tagOf_iff {B : Block} {t₀ t₁ t₂ : Byte} :
    truncateTag B = tagOf [t₀, t₁, t₂] ↔ B.toList.take 3 = [t₀, t₁, t₂] := by
  rw [← Vector.toList_inj, truncateTag_toList, toList_tagOf, take_three_toList]

/-- Settles O24: the comparison of `ocbVerify_eq`, byte by byte. -/
theorem verifyComparesThreeTagBytes : Obligations.VerifyComparesThreeTagBytes := by
  intro π K N T Ct
  simp only [ocbVerify_eq, truncateTag_eq_iff]

/-! ### The round trip -/

/-- The decryption loop undoes the encryption loop, whatever follows the blocks: it puts out the
plaintext and reaches the same offset and checksum. -/
theorem decLoop_encLoop {E Einv : Block → Block} (hE : ∀ B, Einv (E B) = B) {m : Nat}
    (offset sum : Block) {msg : List Byte} (rest : List Byte) (h : 16 * m ≤ msg.length) :
    decLoop Einv m offset sum ((encLoop E m offset sum msg).out ++ rest) =
      { encLoop E m offset sum msg with out := msg.take (16 * m) } := by
  induction m generalizing offset sum msg with
  | zero => rfl
  | succ m ih =>
    have hblock : (blockOf (msg.take 16)).toList = msg.take 16 :=
      toList_blockOf_of_length (by simp; omega)
    have hih := ih (dbl offset) (xorBlock sum (blockOf (msg.take 16)))
      (msg := msg.drop 16) (by simp; omega)
    have hout : msg.take 16 ++ (msg.drop 16).take (16 * m) = msg.take (16 * (m + 1)) := by
      rw [Nat.mul_succ, Nat.add_comm, List.take_add]
    simp only [encLoop, decLoop, List.append_assoc, List.take_left' Vector.length_toList,
      List.drop_left' Vector.length_toList, blockOf_toList, xorBlock_cancel, hE, hih, hblock,
      hout]

/-- `ocb_dec` of what `ocb_enc` gave. -/
theorem ocbDec_ocbEnc {π : PermPort} (hπ : π.Lawful) (K : Key) (N : Block) (Pt : List Byte) :
    ocbDec π K N (ocbEnc π K N Pt).1 = (Pt, (ocbEnc π K N Pt).2) := by
  have hle := sixteen_mul_loopBlocks_le Pt.length
  have htail := length_drop_loopBlocks Pt
  have hr : (Pt.drop (16 * loopBlocks Pt.length)).length ≤ 16 := htail ▸ tailLength_le _
  simp only [ocbDec, ocbEnc_length]
  simp only [ocbEnc, decLoop_encLoop (fun B => (hπ K B).1) _ _ _ hle,
    List.drop_left' (encLoop_out_length _ _ _ _ _), ← htail, xorBlock_blockOf_masked hr]
  rw [toList_blockOf_of_length (by simp at hr ⊢; omega), List.take_left, List.take_append_drop]

/-- Settles O23: `ocbDec_ocbEnc`, and a tag verifies against its own first three bytes. -/
theorem ocbRoundTrip : Obligations.OcbRoundTrip := by
  intro π K N Pt Ct tagFull hπ henc
  have hdec : ocbDec π K N Ct = (Pt, tagFull) := by
    simpa only [henc] using ocbDec_ocbEnc hπ K N Pt
  refine ⟨hdec, ?_, ?_⟩
  · rw [ocbVerify_eq, hdec, if_pos (truncateTag_eq_iff.mpr ⟨rfl, rfl, rfl⟩)]
  · simpa only [henc] using ocbEnc_length π K N Pt

end Sys2Proof.Machine
end

section
/-! PROOFS. What OCB_ENCRYPT and OCB_DECRYPT answer (41_ocb_core.md R93, R94). -/

namespace Sys2Proof.Machine

section
variable (s : State) (K : Key) (N : Block)

theorem exec_ocbEncrypt {Pt : List Byte} (h : Pt.length ≤ Config.maxPlain) :
    exec (.ocbEncrypt (K.toList ++ N.toList ++ Pt)) s =
      .next (s.answering ⟨.ok, 0x00,
        (ocbEnc Config.port K N Pt).1 ++ (ocbEnc Config.port K N Pt).2.toList⟩) := by
  simp only [exec_eq_perform, perform, ocbEncryptCommand, Config.params,
    ocbEncryptOperands_append K N h, complete_eq_answering, noInfo]

theorem exec_ocbDecrypt (T : Tag) {Ct : List Byte} (h : Ct.length ≤ Config.maxPlain) :
    exec (.ocbDecrypt (K.toList ++ N.toList ++ T.toList ++ Ct)) s =
      if truncateTag (ocbDec Config.port K N Ct).2 = T
      then .next (s.answering ⟨.ok, 0x00, (ocbDec Config.port K N Ct).1⟩)
      else .next (s.raising .authenticationFailure) := by
  simp only [exec_eq_perform, perform, ocbDecryptCommand, Config.params,
    ocbDecryptOperands_append K N T h, ocbVerify_eq]
  by_cases htag : truncateTag (ocbDec Config.port K N Ct).2 = T
  · simp only [if_pos htag, complete_eq_answering, noInfo]
  · simp only [if_neg htag, raise_eq_raising]

end

/-- Settles O25: a bad length breaks the layout, and `exec_ocbEncrypt` gives the answer. -/
theorem ocbEncryptReturnsCiphertextAndTag : Obligations.OcbEncryptReturnsCiphertextAndTag := by
  refine fun s => ⟨fun p => ⟨rfl, fun h => exec_of_not_layoutOk s ?_⟩,
    fun K N Pt hle => ⟨_, exec_ocbEncrypt s K N hle, rfl, ?_⟩⟩
  · rw [LayoutOk]
    omega
  · rw [List.length_append, ocbEnc_length, Vector.length_toList]

/-- Settles O26: a bad length breaks the layout, and `exec_ocbDecrypt` gives both answers. -/
theorem ocbDecryptReleasesOnlyOnTagMatch : Obligations.OcbDecryptReleasesOnlyOnTagMatch := by
  refine fun s => ⟨fun p => ⟨rfl, fun h => exec_of_not_layoutOk s ?_⟩,
    fun K N t₀ t₁ t₂ Ct hle => ?_⟩
  · rw [LayoutOk]
    omega
  · have hexec := exec_ocbDecrypt s K N (tagOf [t₀, t₁, t₂]) hle
    simpa only [toList_tagOf, truncateTag_eq_tagOf_iff] using hexec

end Sys2Proof.Machine
end

section
/-! PROOFS. The byte images of counters (00_scope.md R10, 42_iv_state.md R97) and the increment as a
carry through the bytes (R98): a byte list of a given length is determined by its little-endian
number, so both come down to that number. -/

namespace Sys2Proof.Machine

/-! ### Byte lists and their little-endian numbers -/

/-- Byte lists of one length with the same number are equal, byte by byte. -/
theorem eq_of_valLeNat_eq {l m : List Byte} (hlen : l.length = m.length)
    (h : valLeNat l = valLeNat m) : l = m := by
  refine List.ext_getElem hlen fun i hl hm => BitVec.eq_of_toNat_eq ?_
  rw [toNat_getElem_valLeNat l i hl, toNat_getElem_valLeNat m i hm, h]

/-- The first `n` digits of a number in base 256 are its value modulo `256 ^ n`. -/
theorem valLeNat_digits (v n : Nat) :
    valLeNat ((List.range n).map fun i => BitVec.ofNat 8 (v / 256 ^ i)) = v % 256 ^ n := by
  induction n with
  | zero => simp [valLeNat, Nat.mod_one]
  | succ n ih =>
    rw [List.range_succ, List.map_append, valLeNat_append, ih, List.length_map, List.length_range,
      pow_succ, Nat.mod_mul]
    simp [valLeNat]

/-! ### The image of a counter -/

theorem valLeNat_le16 (v : Counter) : valLeNat (le16 v).toList = v.toNat := by
  rw [le16_toList, valLeNat_digits]
  exact Nat.mod_eq_of_lt v.isLt

theorem valLe_le16 (v : Counter) : valLe (le16 v).toList = v := by
  rw [valLe, valLeNat_le16, BitVec.ofNat_toNat, BitVec.setWidth_eq]

theorem toNat_valLe_block (b : Block) : (valLe b.toList).toNat = valLeNat b.toList := by
  have hlt := valLeNat_lt b.toList
  rw [Vector.length_toList] at hlt
  rw [valLe, BitVec.toNat_ofNat]
  exact Nat.mod_eq_of_lt hlt

theorem le16_valLe (b : Block) : le16 (valLe b.toList) = b := by
  refine Vector.toList_inj.mp (eq_of_valLeNat_eq (by simp) ?_)
  rw [valLeNat_le16, toNat_valLe_block]

/-- Settles O30: `valLe_le16` and `le16_valLe` are the two directions. -/
theorem counterImagesAreInverse : Obligations.CounterImagesAreInverse :=
  ⟨fun v => ⟨valLe_le16 v, getElem_le16 v 0 (by decide), low_toNat v⟩, le16_valLe⟩

/-! ### The increment -/

theorem ivIncrement_toNat (v : Counter) : (ivIncrement v).toNat = (v.toNat + 1) % 2 ^ 128 :=
  BitVec.toNat_add v 1

@[simp] theorem ivIncrementBytes_length (l : List Byte) :
    (ivIncrementBytes l).length = l.length := by
  induction l with
  | nil => rfl
  | cons b bs ih =>
    rw [ivIncrementBytes]
    split <;> simp [ih]

/-- The carry through the bytes adds 1 to their number; a carry out of the last byte is lost. -/
theorem valLeNat_ivIncrementBytes (l : List Byte) :
    valLeNat (ivIncrementBytes l) = (valLeNat l + 1) % 256 ^ l.length := by
  induction l with
  | nil => rfl
  | cons b bs ih =>
    have hb := b.isLt
    have hbs := valLeNat_lt bs
    rw [ivIncrementBytes, List.length_cons, pow_succ']
    split
    next hwrap =>
      have htop : b.toNat + 1 = 256 := by bv_omega
      have hsum : valLeNat (b :: bs) + 1 = 256 * (valLeNat bs + 1) := by
        rw [valLeNat]
        omega
      rw [hsum, Nat.mul_mod_mul_left, ← ih]
      simp [valLeNat]
    next hstop =>
      have hbyte : (b + 1).toNat = b.toNat + 1 := by bv_omega
      rw [Nat.mod_eq_of_lt (by rw [valLeNat]; omega), valLeNat, valLeNat, hbyte]
      omega

theorem le16_ivIncrement (v : Counter) :
    (le16 (ivIncrement v)).toList = ivIncrementBytes (le16 v).toList := by
  refine eq_of_valLeNat_eq (by simp) ?_
  calc valLeNat (le16 (ivIncrement v)).toList = (v.toNat + 1) % 2 ^ 128 := by
        rw [valLeNat_le16, ivIncrement_toNat]
    _ = valLeNat (ivIncrementBytes (le16 v).toList) := by
        rw [valLeNat_ivIncrementBytes, valLeNat_le16, Vector.length_toList]
        rfl

/-- Settles O31: the number by `ivIncrement_toNat`, the bytes by `le16_ivIncrement`. -/
theorem incrementCarriesThroughTheBytes : Obligations.IncrementCarriesThroughTheBytes :=
  fun v => ⟨ivIncrement_toNat v, le16_ivIncrement v⟩

end Sys2Proof.Machine
end

section
/-! PROOFS. What moves EIV (42_iv_state.md R99, R102; I1 of 10_state.md R30), and that ENCRYPT and
DECRYPT, of which neither writes what the other reads, commute (20_memory.md R44). -/

namespace Sys2Proof.Machine

/-! ### EIV -/

/-- Settles O32, over the cases of `perform_cases`: of the four only a sealed packet moves EIV, and
only a raise is not OK. -/
theorem onlyEncryptAndInstallationMoveEiv : Obligations.OnlyEncryptAndInstallationMoveEiv := by
  intro i s t r hexec hout hi
  obtain rfl := perform_of_exec hexec
  rcases perform_cases i s hi with
    ⟨e, he, ht⟩ | ⟨_, _, _, hne, _, ht⟩ | ⟨p, rfl, _, _, ht⟩ |
    ⟨_, _, _, _, _, _, c, dist, k, rfl, _, _, _, _, _, _, _, ht⟩ <;> rw [ht] at hout ⊢
  · have hbad : r.status ≠ .ok := fun hok => he ((status_of_raising hout).symm.trans hok)
    exact ⟨fun _ _ => ⟨fun hok => absurd hok hbad, fun _ => rfl⟩, fun _ => rfl⟩
  · exact ⟨fun p hp => absurd hp (hne p), fun _ => rfl⟩
  · have hok : r.status = .ok := congrArg Response.status (response_unique rfl hout)
    exact ⟨fun _ _ => ⟨fun _ => rfl, fun hbad => absurd hok hbad⟩, fun hne => absurd rfl (hne p)⟩
  · obtain ⟨-, -, hkept, -⟩ := applyAccept_frame c dist k s
    exact ⟨fun _ hp => (nomatch hp), fun _ => hkept⟩

/-! ### The elements that ENCRYPT writes -/

/-- `s` with other values in the two elements that ENCRYPT writes, EIV and the responses. -/
def State.withSent (s : State) (e : Counter) (out : List Response) : State :=
  { s with eiv := e, outbox := out }

theorem withSent_answering (s : State) (e : Counter) (out : List Response) (r : Response) :
    (s.withSent e out).answering r = s.withSent e (out ++ [r]) := rfl

theorem applyAccept_withSent (c : Counter) (dist : Int) (k : PacketClass) (s : State) (e : Counter)
    (out : List Response) :
    applyAccept c dist k (s.withSent e out) = (applyAccept c dist k s).withSent e out := by
  cases k <;> rfl

/-- ReplayWindow decides by KEY, DIV and HIST, and by nothing that ENCRYPT writes. -/
theorem rwDecide_withSent (P : Params) (s : State) (e : Counter) (out : List Response)
    (w : WirePacket) : rwDecide P (s.withSent e out) w = rwDecide P s w := rfl

/-! ### One command after the other -/

section
variable (P : Params) (s : State)

/-- ENCRYPT's response and the EIV it leaves follow from KEY_VALID, KEY and EIV, and it writes
nothing but these two. -/
theorem encryptCommand_of_same_key (pt : List Byte) :
    ∃ (e : Counter) (re : Response), ∀ u : State,
      u.keyValid = s.keyValid → u.key = s.key → u.eiv = s.eiv →
      encryptCommand P pt u = u.withSent e (u.outbox ++ [re]) := by
  by_cases hlen : pt.length ≤ P.maxPlain
  · cases hkey : s.keyValid with
    | true =>
      refine ⟨ivIncrement s.eiv, ⟨.ok, noInfo, sealPacket P.port s.key (ivIncrement s.eiv) pt⟩,
        fun u hv hk he => ?_⟩
      rw [encryptCommand, if_pos hlen, if_pos hv, ← hk, ← he]
      rfl
    | false =>
      refine ⟨s.eiv, ⟨.notKeyed, noInfo, []⟩, fun u hv _ he => ?_⟩
      rw [encryptCommand, if_pos hlen, if_neg (by simp [hv]), ← he]
      rfl
  · refine ⟨s.eiv, ⟨.illegalCommand, noInfo, []⟩, fun u _ _ he => ?_⟩
    rw [encryptCommand, if_neg hlen, ← he]
    rfl

/-- DECRYPT gives one response and one effect whatever EIV holds, and keeps EIV and the key. -/
theorem decryptCommand_withSent (w : List Byte) :
    ∃ (d : State) (rd : Response), d.keyValid = s.keyValid ∧ d.key = s.key ∧
      ∀ (e : Counter) (out : List Response),
        decryptCommand P w (s.withSent e out) = d.withSent e (out ++ [rd]) := by
  cases hkey : s.keyValid with
  | false =>
    refine ⟨s, ⟨.notKeyed, noInfo, []⟩, hkey, rfl, fun e out => ?_⟩
    rw [decryptCommand, if_neg (by simp [State.withSent, hkey])]
    rfl
  | true =>
    have hrun (e out) : (s.withSent e out).keyValid = true := hkey
    cases hwire : wireOperand P.maxPlain w with
    | none =>
      refine ⟨s, ⟨.malformedPacket, noInfo, []⟩, hkey, rfl, fun e out => ?_⟩
      simp only [decryptCommand, hrun, hwire, if_true]
      rfl
    | some p =>
      cases hdecide : rwDecide P s p with
      | reject why =>
        refine ⟨s, ⟨why, noInfo, []⟩, hkey, rfl, fun e out => ?_⟩
        simp only [decryptCommand, hrun, hwire, rwDecide_withSent, hdecide, if_true]
        rfl
      | accept c dist k pt =>
        obtain ⟨hvalid, hsame, -⟩ := applyAccept_frame c dist k s
        refine ⟨applyAccept c dist k s, ⟨.ok, classCode k, pt⟩, hvalid.trans hkey, hsame,
          fun e out => ?_⟩
        simp only [decryptCommand, hrun, hwire, rwDecide_withSent, hdecide, if_true,
          applyAccept_withSent, complete_eq_answering, withSent_answering]

end

/-- Settles O52: in both orders the state ends as DECRYPT's effect with ENCRYPT's EIV. -/
theorem encryptAndDecryptCommute : Obligations.EncryptAndDecryptCommute := by
  intro s pt w
  obtain ⟨e, re, henc⟩ := encryptCommand_of_same_key Config.params s pt
  obtain ⟨d, rd, hvalid, hkey, hdec⟩ := decryptCommand_withSent Config.params s w
  refine ⟨s.withSent e (s.outbox ++ [re]), d.withSent s.eiv (s.outbox ++ [rd]),
    d.withSent e (s.outbox ++ [re, rd]), d.withSent e (s.outbox ++ [rd, re]), re, rd,
    ?_, ?_, ?_, ?_, rfl, rfl, rfl⟩
  · rw [exec_eq_perform, perform, henc s rfl rfl rfl]
  · rw [exec_eq_perform, perform, hdec, List.append_assoc, List.singleton_append]
  · rw [exec_eq_perform, perform, ← hdec s.eiv s.outbox]
    rfl
  · rw [exec_eq_perform, perform, henc (d.withSent s.eiv _) hvalid hkey rfl]
    simp only [State.withSent, List.append_assoc, List.singleton_append]

end Sys2Proof.Machine
end

section
/-! PROOFS. The candidate of a header byte (43_replay_window.md R104, R105): the byte fixes the
distance from DIV modulo 256, and 256 consecutive distances hold each residue once. -/

namespace Sys2Proof.Machine

/-- R105's two cases: a forward distance at the far end of byte space stands for a late counter. -/
theorem candidateDistance_cases (W : Window) (d : Counter) (h : Byte) :
    (256 - W.lateMax ≤ forwardDistance d h ∧
      candidateDistance W d h = (forwardDistance d h : Int) - 256) ∨
    (forwardDistance d h < 256 - W.lateMax ∧
      candidateDistance W d h = forwardDistance d h) := by
  by_cases hu : 256 - W.lateMax ≤ forwardDistance d h
  · exact .inl ⟨hu, if_pos hu⟩
  · exact .inr ⟨not_le.mp hu, if_neg hu⟩

theorem candidateDistance_mem_reach (W : Window) (d : Counter) (h : Byte) :
    -(W.lateMax : Int) ≤ candidateDistance W d h ∧
      candidateDistance W d h ≤ 255 - W.lateMax := by
  have hlt : forwardDistance d h < 256 := (h - low d).isLt
  have hbound := W.bound
  obtain ⟨hu, hs⟩ | ⟨hu, hs⟩ := candidateDistance_cases W d h <;> omega

theorem low_candidate (W : Window) (d : Counter) (h : Byte) : low (candidate W d h) = h := by
  have hlow := low_add_distance d (candidateDistance W d h)
  have hforward := forwardDistance_eq d h
  have hh := h.isLt
  apply BitVec.eq_of_toNat_eq
  rw [candidate]
  obtain ⟨-, hs⟩ | ⟨-, hs⟩ := candidateDistance_cases W d h <;> omega

/-- Different distances less than 256 apart lead to different low bytes. -/
theorem distance_eq_of_low_eq {d : Counter} {z z' : Int} (hz : z - z' < 256) (hz' : z' - z < 256)
    (h : low (d + BitVec.ofInt 128 z) = low (d + BitVec.ofInt 128 z')) : z = z' := by
  have hlow := low_add_distance d z
  have hlow' := low_add_distance d z'
  rw [h] at hlow
  omega

/-- Settles O34: the reach is 256 distances wide, and the tolerance window no wider. -/
theorem candidateIsUnique : Obligations.CandidateIsUnique := by
  intro W d h
  obtain ⟨hlo, hhi⟩ := candidateDistance_mem_reach W d h
  refine ⟨rfl, low_candidate W d h, hlo, hhi, fun z hz hz' hlow => ?_,
    fun z z' hz hz₁ hz' hz₁' hlow => ?_⟩
  · have hsame : low (d + BitVec.ofInt 128 z) = low (candidate W d h) :=
      hlow.trans (low_candidate W d h).symm
    exact distance_eq_of_low_eq (by omega) (by omega) hsame
  · have hbound := W.bound
    exact distance_eq_of_low_eq (by omega) (by omega) hlow

end Sys2Proof.Machine
end

section
/-! PROOFS. What RW_PROBE, SET_KEY, ENCRYPT and READ_REG answer (44_cryptstate.md R131, R118 to R120,
R123, R124, R133): an equation for each command's well-laid payloads. A broken layout is
`exec_of_not_layoutOk`. -/

namespace Sys2Proof.Machine

/-! ### RW_PROBE -/

theorem exec_rwProbe (s : State) (h : Byte) :
    exec (.rwProbe [h]) s = .next
      (if s.keyValid then
        s.answering ⟨.ok,
          classCode (classOf Config.window (candidateDistance Config.window s.div h)),
          (le16 (candidate Config.window s.div h)).toList ++
            [seenByte (seen s (candidate Config.window s.div h))]⟩
       else s.raising .notKeyed) := by
  simp only [exec_eq_perform, perform, rwProbeCommand, byteOperand, complete_eq_answering,
    raise_eq_raising, Config.params]

/-- The seen byte, read off the HIST slot of the counter's low byte. -/
theorem seenByte_seen (s : State) (c : Counter) :
    seenByte (seen s c) =
      if s.hist[c.toNat % 256]'(Nat.mod_lt _ (by decide)) = some c then 0x01 else 0x00 := by
  simp only [seenByte, seen_iff]

/-- Settles O36: `exec_rwProbe`, with the seen byte read by `seenByte_seen`. -/
theorem rwProbeReportsTheCandidate : Obligations.RwProbeReportsTheCandidate := by
  refine fun s => ⟨fun p => ⟨rfl, fun hlen => exec_of_not_layoutOk s hlen⟩, fun hkey h => ?_,
    fun hkey h c k hc hk => ?_⟩
  · rw [exec_rwProbe, if_neg (ne_true_of_eq_false hkey)]
  · subst hc hk
    rw [exec_rwProbe, if_pos hkey, seenByte_seen]

/-! ### SET_KEY -/

/-- A 16-byte field is prefixed with its length 0x10. -/
theorem lengthPrefixed_toList (B : Block) : lengthPrefixed B.toList = 0x10 :: B.toList := by
  rw [lengthPrefixed, Vector.length_toList]
  rfl

/-- SET_KEY of three fields: the key's length is checked before the IVs'. -/
theorem exec_setKey (s : State) {k e d : List Byte} (hk : k.length ≤ 255) (he : e.length ≤ 255)
    (hd : d.length ≤ 255) :
    exec (.setKey (lengthPrefixed k ++ lengthPrefixed e ++ lengthPrefixed d)) s = .next
      (if k.length ≠ 16 then s.raising .invalidKeyLength
       else if e.length ≠ 16 ∨ d.length ≠ 16 then s.raising .invalidIVLength
       else (install (blockOf k) (valLe e) (valLe d) s).answering ⟨.ok, 0x00, []⟩) := by
  simp only [exec_eq_perform, perform, setKeyCommand, setKeyOperands_append hk he hd,
    raise_eq_raising, complete_eq_answering, noInfo]

/-- SET_KEY of a key and the images of two counters installs them. -/
theorem exec_setKey_installs (s : State) (K : Key) (e d : Counter) :
    exec (.setKey (0x10 :: K.toList ++ 0x10 :: (le16 e).toList ++ 0x10 :: (le16 d).toList)) s =
      .next ((install K e d s).answering ⟨.ok, 0x00, []⟩) := by
  have hlen (B : Block) : B.toList.length ≤ 255 := by simp
  have hexec := exec_setKey s (hlen K) (hlen (le16 e)) (hlen (le16 d))
  simpa only [lengthPrefixed_toList, Vector.length_toList, ne_eq, not_true_eq_false, or_self,
    if_false, blockOf_toList, valLe_le16] using hexec

/-- Settles O39: `exec_setKey` in the order of its checks; `exec_setKey_installs` passes them all. -/
theorem setKeyInstallsAndOrdersItsErrors : Obligations.SetKeyInstallsAndOrdersItsErrors := by
  refine fun s => ⟨fun p => ⟨rfl, fun hfields => exec_of_not_layoutOk s hfields⟩,
    fun k e d hk he hd => ⟨fun hkey => ?_, fun hkey hiv => ?_⟩, exec_setKey_installs s⟩
  · exact (exec_setKey s hk he hd).trans (by rw [if_pos hkey])
  · exact (exec_setKey s hk he hd).trans (by rw [if_neg (not_not.mpr hkey), if_pos hiv])

/-! ### ENCRYPT -/

/-- The sealed packet byte by byte: header, three tag bytes, ciphertext. -/
theorem sealPacket_eq {π : PermPort} {K : Key} {c : Counter} {Pt Ct : List Byte} {tagFull : Block}
    (h : ocbEnc π K (le16 c) Pt = (Ct, tagFull)) :
    sealPacket π K c Pt = (le16 c)[0] :: tagFull[0] :: tagFull[1] :: tagFull[2] :: Ct := by
  have hheader : low c = (le16 c)[0] := (getElem_le16 c 0 (by decide)).symm
  simp only [sealPacket, h, wire, truncateTag_toList, hheader, List.cons_append, List.nil_append]

theorem exec_encrypt (s : State) {Pt : List Byte} (hlen : Pt.length ≤ Config.maxPlain) :
    exec (.encrypt Pt) s = .next
      (if s.keyValid then
        State.answering { s with eiv := s.eiv + 1 }
          ⟨.ok, 0x00, sealPacket Config.port s.key (s.eiv + 1) Pt⟩
       else s.raising .notKeyed) := by
  simp only [exec_eq_perform, perform, encryptCommand, Config.params, hlen, if_true,
    ivIncrement, complete_eq_answering, raise_eq_raising, noInfo]

/-- Settles O42: a long plaintext breaks the layout; `exec_encrypt` and `sealPacket_eq` give the
packet. -/
theorem encryptSealsUnderTheNextCounter : Obligations.EncryptSealsUnderTheNextCounter := by
  refine fun s Pt => ⟨rfl, fun hlong => exec_of_not_layoutOk s (not_le.mpr hlong),
    fun hlen hkey => ?_, fun hlen hkey c Ct tagFull hc henc => ?_⟩
  · rw [exec_encrypt s hlen, if_neg (ne_true_of_eq_false hkey)]
  · subst hc
    rw [exec_encrypt s hlen, if_pos hkey, sealPacket_eq henc, State.answering]

/-! ### READ_REG -/

/-- Indices from 8 name no register. -/
theorem regOfIndex_reserved {i : Byte} (hi : 0x08 ≤ i.toNat) : regOfIndex i = none := by
  obtain ⟨n, hn⟩ := Nat.exists_eq_add_of_le' hi
  rw [regOfIndex, hn]
  rfl

/-- The image of an event counter, byte by byte. -/
theorem le4_eq (v : EventCount) :
    le4 v = [BitVec.ofNat 8 v.toNat, BitVec.ofNat 8 (v.toNat / 256),
      BitVec.ofNat 8 (v.toNat / 65536), BitVec.ofNat 8 (v.toNat / 16777216)] := by
  simp only [le4, BitVec.extractLsb', Nat.shiftRight_eq_div_pow, Nat.pow_zero, Nat.div_one,
    Nat.reducePow]

section
variable (s : State) {i : Byte}

theorem exec_readReg {r : Reg} (hi : regOfIndex i = some r) :
    exec (.readReg [i]) s = .next (readRegister r s) := by
  simp only [exec_eq_perform, perform, readRegCommand, byteOperand, hi]

theorem exec_readReg_reserved (hi : regOfIndex i = none) :
    exec (.readReg [i]) s = .next (s.raising .illegalCommand) := by
  simp only [exec_eq_perform, perform, readRegCommand, byteOperand, hi, raise_eq_raising]

theorem readRegister_eiv :
    readRegister .eiv s = if s.keyValid then s.answering ⟨.ok, 0x00, (le16 s.eiv).toList⟩
      else s.raising .notKeyed := rfl

theorem readRegister_div :
    readRegister .div s = if s.keyValid then s.answering ⟨.ok, 0x00, (le16 s.div).toList⟩
      else s.raising .notKeyed := rfl

end

/-- Settles O45, index by index; only EIV and DIV look at KEY_VALID. -/
theorem readRegReturnsTheRegister : Obligations.ReadRegReturnsTheRegister := by
  refine fun s => ⟨fun p => ⟨rfl, fun hlen => exec_of_not_layoutOk s hlen⟩,
    exec_readReg s (r := .key) rfl, fun hkey => ?_, fun hkey => ?_, fun i v hv => ?_,
    exec_readReg s (r := .status) rfl,
    fun i hi => exec_readReg_reserved s (regOfIndex_reserved hi)⟩
  · have hkey := ne_true_of_eq_false hkey
    rw [exec_readReg s (r := .eiv) rfl, exec_readReg s (r := .div) rfl, readRegister_eiv,
      readRegister_div, if_neg hkey, if_neg hkey]
    exact ⟨rfl, rfl⟩
  · rw [exec_readReg s (r := .eiv) rfl, exec_readReg s (r := .div) rfl, readRegister_eiv,
      readRegister_div, if_pos hkey, if_pos hkey]
    exact ⟨rfl, rfl⟩
  · rw [← le4_eq]
    obtain ⟨rfl, rfl⟩ | ⟨rfl, rfl⟩ | ⟨rfl, rfl⟩ | ⟨rfl, rfl⟩ := hv
    · exact exec_readReg s (r := .good) rfl
    · exact exec_readReg s (r := .late) rfl
    · exact exec_readReg s (r := .lost) rfl
    · exact exec_readReg s (r := .resync) rfl

end Sys2Proof.Machine
end

section
/-! PROOFS. Exceptions (60_exceptions.md R135, R136, R151): a command either raises with the record as
it was, or answers OK. -/

namespace Sys2Proof.Machine

@[simp] theorem sameRecord_refl (s : State) : SameRecord s s :=
  ⟨rfl, rfl, rfl, rfl, rfl, rfl, rfl, rfl, rfl⟩

/-- The random source's answer is no element of the record (log 9). -/
@[simp] theorem sameRecord_rngTaken (s : State) : SameRecord s (rngTaken s) := sameRecord_refl s

/-- A response is no element of the record. -/
@[simp] theorem sameRecord_answering (s s' : State) (r : Response) :
    SameRecord s (s'.answering r) ↔ SameRecord s s' := Iff.rfl

/-- The two ends of every command, `perform_cases` and `perform_install_cases` together: a raise over
an unchanged record, or an OK answer over whatever the command wrote. -/
theorem perform_raises_or_completes (i : Instr) (s : State) :
    ∃ s' : State, s'.outbox = s.outbox ∧
      ((SameRecord s s' ∧ ∃ e : Status, perform Config.params i s = s'.raising e) ∨
       ∃ (info : Byte) (payload : List Byte),
         perform Config.params i s = s'.answering ⟨.ok, info, payload⟩) := by
  cases hi : installs i with
  | false =>
    rcases perform_cases i s hi with
      ⟨e, _, hraise⟩ | ⟨b, y, _, _, _, hanswer⟩ | ⟨p, _, _, _, hsealed⟩ |
      ⟨_, _, _, _, _, pt, c, dist, k, _, _, _, _, _, _, _, _, haccept⟩
    · exact ⟨s, rfl, .inl ⟨sameRecord_refl s, e, hraise⟩⟩
    · exact ⟨s, rfl, .inr ⟨b, y, hanswer⟩⟩
    · exact ⟨{ s with eiv := s.eiv + 1 }, rfl, .inr ⟨_, _, hsealed⟩⟩
    · obtain ⟨-, -, -, -, hout, -⟩ := applyAccept_frame c dist k s
      exact ⟨applyAccept c dist k s, hout, .inr ⟨classCode k, pt, haccept⟩⟩
  | true =>
    obtain ⟨s', hs', hend⟩ := perform_install_cases i s hi
    have hsame : SameRecord s s' ∧ s'.outbox = s.outbox := by
      obtain rfl | ⟨-, rfl⟩ := hs'
      · exact ⟨sameRecord_refl s', rfl⟩
      · exact ⟨sameRecord_rngTaken s, rfl⟩
    obtain ⟨hrecord, hout⟩ := hsame
    obtain ⟨e, _, hraise⟩ | ⟨K, e, d, hinstalled⟩ := hend
    · exact ⟨s', hout, .inl ⟨hrecord, e, hraise⟩⟩
    · exact ⟨install K e d s', hout, .inr ⟨_, _, hinstalled⟩⟩

/-- Settles O49: of the two ends of `perform_raises_or_completes` only a raise is not OK. -/
theorem errorsChangeNothing : Obligations.ErrorsChangeNothing := by
  intro i s t r hexec hout hbad
  obtain rfl := perform_of_exec hexec
  obtain ⟨s', hkept, ⟨hrecord, e, ht⟩ | ⟨info, payload, ht⟩⟩ := perform_raises_or_completes i s
    <;> rw [ht] at hout ⊢
  · obtain rfl : r = ⟨e, 0x00, []⟩ := response_unique hkept hout
    exact ⟨(sameRecord_answering s s' _).mpr hrecord, rfl, rfl⟩
  · obtain rfl : r = ⟨.ok, info, payload⟩ := response_unique hkept hout
    exact absurd rfl hbad

end Sys2Proof.Machine
end

section
/-! PROOFS. Frames and commands (30_encoding.md R47, R48, R50, R67, R69, R70): the decoder and the
encoder are inverse to each other, and every assembler form is the encoding of a command. -/

namespace Sys2Proof.Machine

/-! ### The round trip of a frame -/

/-- A frame whose length agrees with its PLEN, and whose OPC is that of a command. -/
theorem decode_of_commandOf {opc lo hi : Byte} {p : List Byte} {i : Instr}
    (hlen : p.length = plen lo hi) (hcommand : commandOf opc p = some i) :
    decode (opc :: lo :: hi :: p) = .ok i := by
  rw [decode_whole hlen, hcommand]

theorem decode_encode {i : Instr} (hi : i.WellFormed) : decode (encode i) = .ok i :=
  decode_of_commandOf (plen_le2 hi).symm (commandOf_opcodeOf i)

/-- Settles O8: PLEN carries the payload's length, and the opcode map undoes `opcodeOf`. -/
theorem decodeOfEncode : Obligations.DecodeOfEncode := fun _ => decode_encode

/-- Settles O9: `decode_ok` says what an accepted frame is, and `le2` gives its PLEN back. -/
theorem encodeOfDecode : Obligations.EncodeOfDecode := by
  intro bytes i hdecode
  obtain ⟨opc, lo, hi, p, rfl, hlen, hcommand⟩ := decode_ok hdecode
  obtain ⟨rfl, rfl⟩ := commandOf_some hcommand
  refine ⟨?_, hlen.trans_le (plen_le lo hi)⟩
  rw [encode, rawFrame, hlen, le2_plen]
  rfl

/-! ### Assembler forms -/

/-- A READ_REG form is the frame of READ_REG of its index byte. -/
theorem decode_assemble_readReg (r : RegOperand) :
    decode (assemble (.readReg r)) = .ok (.readReg [regOperandByte r]) :=
  decode_of_commandOf (opc := 0x50) rfl rfl

/-- A form that writes PLEN as a sum of operand lengths, over the operands laid out as `p`. -/
theorem decode_of_le2 {opc : Byte} {n : Nat} {p : List Byte} {i : Instr}
    (hopc : opcodeOf i = opc) (hp : i.payload = p) (hn : p.length = n) (hle : n ≤ 65535) :
    decode (opc :: (le2 n ++ p)) = .ok i := by
  subst hopc hp hn
  exact decode_encode hle

@[simp] theorem length_lengthPrefixed (x : List Byte) :
    (lengthPrefixed x).length = x.length + 1 := rfl

/-- Settles O11, form by form: `decode_of_le2` where PLEN is a sum of operand lengths. -/
theorem assembledFormsDecode : Obligations.AssembledFormsDecode := by
  refine ⟨fun x hx => decode_of_le2 rfl rfl rfl hx,
    fun a b hab hlen => decode_of_le2 rfl rfl ?_ hlen,
    fun x => decode_of_le2 (n := 16) rfl rfl ?_ (by decide),
    fun x => decode_of_le2 (n := 16) rfl rfl ?_ (by decide),
    fun k n p hlen => decode_of_le2 rfl rfl ?_ hlen,
    fun k n t c hlen => decode_of_le2 rfl rfl ?_ hlen,
    fun k e d hk he hd => decode_of_le2 rfl rfl ?_ (by omega),
    rfl, fun p hp => decode_of_le2 rfl rfl rfl hp, fun w hw => decode_of_le2 rfl rfl rfl hw,
    fun h => rfl, fun n => decode_assemble_readReg _, decode_assemble_readReg _,
    decode_assemble_readReg _, decode_assemble_readReg _, decode_assemble_readReg _,
    decode_assemble_readReg _, decode_assemble_readReg _, decode_assemble_readReg _,
    decode_assemble_readReg _, fun k e d => ?_, fun opc x hx => ⟨_, _, rfl, plen_le2 hx⟩⟩
  · simp only [List.length_append]
    omega
  · simp
  · simp
  · simp only [List.length_append, Vector.length_toList]
  · simp only [List.length_append, Vector.length_toList]
  · simp only [List.length_append, length_lengthPrefixed]
    omega
  · simp only [assemble, Vector.length_toList, lengthPrefixed_toList]
    rfl

/-- Settles O10: the frames are short, so the decoder is evaluated on them. -/
theorem sampleFramesDecode : Obligations.SampleFramesDecode := ⟨rfl, rfl, rfl, rfl, rfl, rfl⟩

/-- Settles O12: RLEN carries every length up to 65535 by `plen_le2`; the codes are a table. -/
theorem responseBytes : Obligations.ResponseBytes :=
  ⟨fun _ hlen => ⟨_, _, rfl, plen_le2 hlen⟩,
    rfl, rfl, rfl, rfl, rfl, rfl, rfl, rfl, rfl, rfl, rfl, rfl, rfl, rfl⟩

end Sys2Proof.Machine
end

section
/-! PROOFS. Reset, the host's inputs and the machine's parameters (10_state.md R31,
70_reset_and_hazards.md R161, R162, 30_encoding.md R48, 00_scope.md R7). -/

namespace Sys2Proof.Machine

@[simp] theorem getElem_emptyHist (i : Nat) (h : i < 256) : emptyHist[i] = none :=
  Vector.getElem_replicate h

/-- Settles O1, element by element. -/
theorem resetRecordIsUnkeyedAndEmpty : Obligations.ResetRecordIsUnkeyedAndEmpty :=
  ⟨rfl, getElem_emptyHist, rfl, rfl, rfl, rfl⟩

section
variable {s : State} {rest : List HostInput}

theorem step_of_reset (hin : s.inbox = .reset :: rest) :
    step s = .next (resetBlock { s with inbox := rest }) := by
  simp only [step, hin, accepted_of_inbox_cons hin]

/-- A step on a frame that decodes to a command. -/
theorem step_of_decode_ok {bytes : List Byte} {i : Instr} (hin : s.inbox = .frame bytes :: rest)
    (hd : decode bytes = .ok i) : step s = exec i { s with inbox := rest } := by
  simp only [step, hin, hd, accepted_of_inbox_cons hin]

theorem step_of_no_input (hin : s.inbox = []) : step s = .next s := by
  simp only [step, hin]

end

theorem decode_short {bytes : List Byte} (h : bytes.length < 3) :
    decode bytes = .error .truncatedFrame := by
  match bytes, h with
  | [], _ => rfl
  | [_], _ => rfl
  | [_, _], _ => rfl
  | _ :: _ :: _ :: p, h =>
    simp only [List.length_cons] at h
    omega

theorem decode_truncated {opc lo hi : Byte} {p : List Byte} (h : p.length < plen lo hi) :
    decode (opc :: lo :: hi :: p) = .error .truncatedFrame := if_pos h

theorem decode_runOn {opc lo hi : Byte} {p : List Byte} (h : plen lo hi < p.length) :
    decode (opc :: lo :: hi :: p) = .error .runOnFrame :=
  (if_neg h.le.not_gt).trans (if_pos h)

/-- Settles O3: `resetBlock` writes the reset record and keeps the host's side. -/
theorem resetInputRestoresTheResetRecord : Obligations.ResetInputRestoresTheResetRecord :=
  fun _ _ hin => ⟨_, step_of_reset hin, ⟨rfl, rfl, rfl, rfl, rfl, rfl, rfl, rfl, rfl⟩,
    rfl, rfl, rfl, rfl⟩

/-- Settles O4 by `step_of_no_input`: the block waits. -/
theorem stepWaitsWithoutInput : Obligations.StepWaitsWithoutInput := fun _ => step_of_no_input

/-- Settles O5 by `step_of_decode_ok`; what decodes is well-formed anyway (O9). -/
theorem stepRunsTheDecodedCommand : Obligations.StepRunsTheDecodedCommand :=
  fun _ _ _ _ hin hd _ => step_of_decode_ok hin hd

/-- Settles O7: each misdelivered frame is a decoding error that `step` refuses. -/
theorem misdeliveredFramesAreRefused : Obligations.MisdeliveredFramesAreRefused := by
  intro s bytes rest hin
  refine ⟨fun hshort => step_of_decode_error hin (decode_short hshort),
    fun opc lo hi payload hbytes => ?_⟩
  subst hbytes
  exact ⟨fun h => step_of_decode_error hin (decode_truncated h),
    fun h => step_of_decode_error hin (decode_runOn h)⟩

/-- The port's two directions are a permutation and its inverse. -/
theorem config_port_lawful : Config.port.Lawful := fun K B =>
  ⟨(Config.perm K).symm_apply_apply B, (Config.perm K).apply_symm_apply B⟩

theorem le_maxPlain : 512 ≤ Config.maxPlain :=
  Nat.le_add_left 512 Config.maxPlainAbove512.val

theorem maxPlain_le : Config.maxPlain ≤ 65500 := by
  have hfree := Config.maxPlainAbove512.isLt
  have hmax : Config.maxPlain = Config.maxPlainAbove512.val + 512 := rfl
  omega

/-- Settles O13: the port by its permutation's laws, MAX_PLAIN by the range of its free part. -/
theorem machineParametersAreLegal : Obligations.MachineParametersAreLegal :=
  ⟨config_port_lawful, le_maxPlain, maxPlain_le, rfl, rfl⟩

end Sys2Proof.Machine
end

section
/-! PROOFS. The candidate's place in the reach and its class (43_replay_window.md R105, R106), and
the counters that are no candidate (70_reset_and_hazards.md R172, R173). -/

namespace Sys2Proof.Machine

/-! ### Classes -/

section
variable {W : Window} {z : Int}

theorem classOf_good_iff : classOf W z = .good ↔ z = 1 := by
  unfold classOf
  split_ifs <;> simp_all

theorem classOf_late_iff : classOf W z = .late ↔ z ≤ 0 := by
  unfold classOf
  split_ifs <;> simp <;> omega

theorem classOf_lost_iff : classOf W z = .lost ↔ 2 ≤ z ∧ z ≤ W.aheadMax := by
  unfold classOf
  split_ifs <;> simp <;> omega

theorem classOf_resync_iff : classOf W z = .resync ↔ W.aheadMax < z := by
  have hpos := W.ahead_pos
  unfold classOf
  split_ifs <;> simp <;> omega

end

/-- Settles O35, one lemma per class. -/
theorem classesFollowTheDistance : Obligations.ClassesFollowTheDistance :=
  fun _ _ => ⟨classOf_good_iff, classOf_late_iff, classOf_lost_iff, classOf_resync_iff⟩

/-! ### Counters in reach and out of reach -/

section
variable (d : Counter) {z : Int}

/-- A counter in reach is at the distance that its own header byte says. -/
theorem candidateDistance_low (hlo : -29 ≤ z) (hhi : z ≤ 226) :
    candidateDistance Config.window d (low (d + BitVec.ofInt 128 z)) = z := by
  obtain ⟨-, -, -, -, hunique, -⟩ :=
    candidateIsUnique Config.window d (low (d + BitVec.ofInt 128 z))
  exact (hunique z hlo hhi rfl).symm

/-- A counter in reach is the candidate of its own header byte. -/
theorem candidate_low (hlo : -29 ≤ z) (hhi : z ≤ 226) :
    candidate Config.window d (low (d + BitVec.ofInt 128 z)) = d + BitVec.ofInt 128 z := by
  rw [candidate, candidateDistance_low d hlo hhi]

theorem candidateDistance_bounds (h : Byte) :
    -29 ≤ candidateDistance Config.window d h ∧ candidateDistance Config.window d h ≤ 226 :=
  candidateDistance_mem_reach Config.window d h

/-- A counter in reach is at most 226 ahead of DIV or at most 29 behind it. -/
theorem toNat_sub_of_reach (hlo : -29 ≤ z) (hhi : z ≤ 226) :
    (d + BitVec.ofInt 128 z - d).toNat ≤ 226 ∨ (d - (d + BitVec.ofInt 128 z)).toNat ≤ 29 := by
  have hz : (BitVec.ofInt 128 z).toNat = (z % 2 ^ 128).toNat := BitVec.toNat_ofInt z
  rcases le_or_gt 0 z with h | h
  · left
    bv_omega
  · right
    bv_omega

end

/-- Settles O38: a candidate lies in reach, and a counter outside it does not. -/
theorem countersOutsideTheReachAreNeverTried :
    Obligations.CountersOutsideTheReachAreNeverTried := by
  intro d p hahead hbehind htried
  obtain ⟨hlo, hhi⟩ := candidateDistance_bounds d (low p)
  have hreach := toNat_sub_of_reach d hlo hhi
  rw [← candidate, htried] at hreach
  omega

end Sys2Proof.Machine
end

section
/-! PROOFS. What DECRYPT answers (44_cryptstate.md R126 to R129): an equation for each outcome, the
agreement with RW_PROBE (R132), and the outcome table. -/

namespace Sys2Proof.Machine

/-! ### The outcomes -/

theorem exec_decrypt_unkeyed {s : State} (w : List Byte) (hkey : s.keyValid = false) :
    exec (.decrypt w) s = .next (s.raising .notKeyed) := by
  simp only [exec_eq_perform, perform, decryptCommand, hkey, Bool.false_eq_true, if_false,
    raise_eq_raising]

theorem exec_decrypt_malformed {s : State} {w : List Byte} (hkey : s.keyValid = true)
    (hw : w.length < 4 ∨ Config.maxPlain < w.length - 4) :
    exec (.decrypt w) s = .next (s.raising .malformedPacket) := by
  have hwire : wireOperand Config.params.maxPlain w = none := wireOperand_none hw
  simp only [exec_eq_perform, perform, decryptCommand, hkey, if_true, hwire, raise_eq_raising]

/-- A packet written with its three tag bytes. -/
theorem packet_eq (h t₀ t₁ t₂ : Byte) (ct : List Byte) :
    h :: t₀ :: t₁ :: t₂ :: ct = h :: ((tagOf [t₀, t₁, t₂]).toList ++ ct) := by
  rw [toList_tagOf]
  rfl

theorem wireOperand_packet {M : Nat} (h : Byte) (T : Tag) {ct : List Byte} (hlen : ct.length ≤ M) :
    wireOperand M (h :: (T.toList ++ ct)) = some ⟨h, T, ct⟩ := by
  have htag : T = tagOf [T[0], T[1], T[2]] :=
    Vector.ext fun i hi => by interval_cases i <;> simp [tagOf]
  rw [htag, ← packet_eq, wireOperand_cons _ _ _ _ hlen]

section
variable {P : Params} {s : State} {w : WirePacket} {c : Counter}

theorem rwDecide_seen (hc : candidate P.window s.div w.header = c) (hseen : seen s c = true) :
    rwDecide P s w = .reject .replay := by
  subst hc
  exact if_pos hseen

theorem rwDecide_mismatch (hc : candidate P.window s.div w.header = c) (hseen : seen s c = false)
    (hverify : ocbVerify P.port s.key (le16 c) w.tag w.ciphertext = none) :
    rwDecide P s w = .reject
      (if classOf P.window (candidateDistance P.window s.div w.header) = .resync
        then .outOfWindow else .authenticationFailure) := by
  subst hc
  simp only [rwDecide, hseen, Bool.false_eq_true, if_false, hverify]

theorem rwDecide_verified {pt : List Byte} (hc : candidate P.window s.div w.header = c)
    (hseen : seen s c = false)
    (hverify : ocbVerify P.port s.key (le16 c) w.tag w.ciphertext = some pt) :
    rwDecide P s w = .accept c (candidateDistance P.window s.div w.header)
      (classOf P.window (candidateDistance P.window s.div w.header)) pt := by
  subst hc
  simp only [rwDecide, hseen, Bool.false_eq_true, if_false, hverify]

end

section
variable {s : State} {h : Byte} {T : Tag} {ct pt : List Byte} {c : Counter}

/-- DECRYPT of a well-formed packet does what ReplayWindow decides. -/
theorem exec_decrypt_of_reject {why : Status} (hkey : s.keyValid = true)
    (hlen : ct.length ≤ Config.maxPlain)
    (hdecide : rwDecide Config.params s ⟨h, T, ct⟩ = .reject why) :
    exec (.decrypt (h :: (T.toList ++ ct))) s = .next (s.raising why) := by
  have hwire := wireOperand_packet (M := Config.params.maxPlain) h T hlen
  simp only [exec_eq_perform, perform, decryptCommand, hkey, if_true, hwire, hdecide,
    raise_eq_raising]

theorem exec_decrypt_of_accept {z : Int} {k : PacketClass} (hkey : s.keyValid = true)
    (hlen : ct.length ≤ Config.maxPlain)
    (hdecide : rwDecide Config.params s ⟨h, T, ct⟩ = .accept c z k pt) :
    exec (.decrypt (h :: (T.toList ++ ct))) s =
      .next ((applyAccept c z k s).answering ⟨.ok, classCode k, pt⟩) := by
  have hwire := wireOperand_packet (M := Config.params.maxPlain) h T hlen
  simp only [exec_eq_perform, perform, decryptCommand, hkey, if_true, hwire, hdecide,
    complete_eq_answering]

/-- A seen candidate is a replay, whatever the tag and the ciphertext. -/
theorem exec_decrypt_seen (hkey : s.keyValid = true) (hlen : ct.length ≤ Config.maxPlain)
    (hc : candidate Config.window s.div h = c) (hseen : seen s c = true) :
    exec (.decrypt (h :: (T.toList ++ ct))) s = .next (s.raising .replay) :=
  exec_decrypt_of_reject hkey hlen (rwDecide_seen hc hseen)

/-- An unseen candidate under which the packet does not verify. -/
theorem exec_decrypt_mismatch (hkey : s.keyValid = true) (hlen : ct.length ≤ Config.maxPlain)
    (hc : candidate Config.window s.div h = c) (hseen : seen s c = false)
    (hverify : ocbVerify Config.port s.key (le16 c) T ct = none) :
    exec (.decrypt (h :: (T.toList ++ ct))) s = .next (s.raising
      (if classOf Config.window (candidateDistance Config.window s.div h) = .resync
        then .outOfWindow else .authenticationFailure)) :=
  exec_decrypt_of_reject hkey hlen (rwDecide_mismatch hc hseen hverify)

/-- An unseen candidate under which the packet verifies. -/
theorem exec_decrypt_verified (hkey : s.keyValid = true) (hlen : ct.length ≤ Config.maxPlain)
    (hc : candidate Config.window s.div h = c) (hseen : seen s c = false)
    (hverify : ocbVerify Config.port s.key (le16 c) T ct = some pt) :
    exec (.decrypt (h :: (T.toList ++ ct))) s = .next (State.answering
      (applyAccept c (candidateDistance Config.window s.div h)
        (classOf Config.window (candidateDistance Config.window s.div h)) s)
      ⟨.ok, classCode (classOf Config.window (candidateDistance Config.window s.div h)), pt⟩) :=
  exec_decrypt_of_accept hkey hlen (rwDecide_verified hc hseen hverify)

/-- Of the three outcomes of a well-formed packet only the seen candidate is a replay. -/
theorem exec_decrypt_replay_iff (hkey : s.keyValid = true) (hlen : ct.length ≤ Config.maxPlain) :
    exec (.decrypt (h :: (T.toList ++ ct))) s = .next (s.raising .replay) ↔
      seen s (candidate Config.window s.div h) = true := by
  refine ⟨fun hreplay => ?_, exec_decrypt_seen hkey hlen rfl⟩
  by_contra hunseen
  have hunseen := Bool.eq_false_of_not_eq_true hunseen
  cases hverify : ocbVerify Config.port s.key (le16 (candidate Config.window s.div h)) T ct with
  | none =>
    rw [exec_decrypt_mismatch hkey hlen rfl hunseen hverify] at hreplay
    have hstatus := status_of_raising (congrArg State.outbox (Host.Outcome.next.inj hreplay))
    split at hstatus <;> exact nomatch hstatus
  | some pt =>
    rw [exec_decrypt_verified hkey hlen rfl hunseen hverify] at hreplay
    obtain ⟨-, -, -, -, hkept, -⟩ := applyAccept_frame
      (candidate Config.window s.div h) (candidateDistance Config.window s.div h)
      (classOf Config.window (candidateDistance Config.window s.div h)) s
    exact nomatch response_unique hkept (congrArg State.outbox (Host.Outcome.next.inj hreplay))

end

theorem seenByte_eq_one_iff {b : Bool} : seenByte b = 0x01 ↔ b = true := by
  cases b <;> decide

/-- Settles O37: both sides say that the candidate is seen. -/
theorem probePredictsReplay : Obligations.ProbePredictsReplay := by
  intro s h t₀ t₁ t₂ ct hkey hlen
  refine ⟨_, _, _, (exec_rwProbe s h).trans (by rw [if_pos hkey]), ?_⟩
  rw [packet_eq, exec_decrypt_replay_iff hkey hlen, seenByte_eq_one_iff]

/-! ### The outcome table -/

/-- The candidate's distance by the forward distance, in the machine's window. -/
theorem candidateDistance_eq (d : Counter) (h : Byte) :
    candidateDistance Config.window d h =
      if 227 ≤ forwardDistance d h then (forwardDistance d h : Int) - 256
      else forwardDistance d h := rfl

/-- The candidate by the forward distance, in the machine's window. -/
theorem candidate_eq (d : Counter) (h : Byte) :
    candidate Config.window d h =
      if 227 ≤ forwardDistance d h then d - BitVec.ofNat 128 (256 - forwardDistance d h)
      else d + BitVec.ofNat 128 (forwardDistance d h) := by
  have hlt : forwardDistance d h < 256 := (h - low d).isLt
  rw [candidate, candidateDistance_eq]
  split_ifs with hu
  · have hneg : (forwardDistance d h : Int) - 256 = -((256 - forwardDistance d h : Nat) : Int) := by
      omega
    rw [hneg, BitVec.ofInt_neg, BitVec.ofInt_natCast, BitVec.sub_eq_add_neg]
  · rw [BitVec.ofInt_natCast]

/-- HIST with a counter written in its slot. -/
theorem hist_set_slotOf (v : Vector (Option Counter) 256) (c : Counter) :
    v.set (slotOf c) (some c) = v.set (c.toNat % 256) (some c) (Nat.mod_lt _ (by decide)) := by
  simp only [slotOf_val]

section
variable (c : Counter) (z : Int) (s : State)

theorem applyAccept_of_good : applyAccept c z .good s =
    { s with hist := s.hist.set (c.toNat % 256) (some c) (Nat.mod_lt _ (by decide)),
             div := c, good := s.good + 1 } := by
  rw [← hist_set_slotOf]
  rfl

theorem applyAccept_of_late : applyAccept c z .late s =
    { s with hist := s.hist.set (c.toNat % 256) (some c) (Nat.mod_lt _ (by decide)),
             good := s.good + 1, late := s.late + 1,
             lost := if s.lost = 0 then 0 else s.lost - 1 } := by
  rw [← hist_set_slotOf]
  rfl

theorem applyAccept_of_lost : applyAccept c z .lost s =
    { s with hist := s.hist.set (c.toNat % 256) (some c) (Nat.mod_lt _ (by decide)),
             div := c, good := s.good + 1, lost := s.lost + BitVec.ofInt 32 (z - 1) } := by
  rw [← hist_set_slotOf]
  rfl

theorem applyAccept_of_resync : applyAccept c z .resync s =
    { s with hist := s.hist.set (c.toNat % 256) (some c) (Nat.mod_lt _ (by decide)),
             div := c, good := s.good + 1, lost := s.lost + BitVec.ofInt 32 (z - 1),
             resync := s.resync + 1 } := by
  rw [← hist_set_slotOf]
  rfl

end

section
variable (d : Counter) (h : Byte)

/-- The class of the candidate by the forward distance (43_replay_window.md R106). -/
theorem classOf_candidateDistance :
    classOf Config.window (candidateDistance Config.window d h) =
      if forwardDistance d h = 1 then .good
      else if forwardDistance d h = 0 ∨ 227 ≤ forwardDistance d h then .late
      else if forwardDistance d h ≤ 127 then .lost
      else .resync := by
  have hlateMax : Config.window.lateMax = 29 := rfl
  have haheadMax : Config.window.aheadMax = 127 := rfl
  have hlt : forwardDistance d h < 256 := (h - low d).isLt
  have hdist := candidateDistance_cases Config.window d h
  split_ifs with hgood hlate hlost
  · exact classOf_good_iff.mpr (by omega)
  · exact classOf_late_iff.mpr (by omega)
  · exact classOf_lost_iff.mpr (by omega)
  · exact classOf_resync_iff.mpr (by omega)

theorem classOf_candidateDistance_resync_iff :
    classOf Config.window (candidateDistance Config.window d h) = .resync ↔
      128 ≤ forwardDistance d h ∧ forwardDistance d h ≤ 226 := by
  rw [classOf_candidateDistance]
  split_ifs <;> simp <;> omega

end

theorem ofInt_sub_one {u : Nat} (h : 1 ≤ u) :
    BitVec.ofInt 32 ((u : Int) - 1) = BitVec.ofNat 32 (u - 1) := by
  rw [← BitVec.ofInt_natCast, Int.natCast_sub h]
  rfl

/-- Verification against a tag written byte by byte. -/
theorem ocbVerify_tagOf {π : PermPort} {K : Key} {N tagFull : Block} {ct pt : List Byte}
    (t₀ t₁ t₂ : Byte) (hdec : ocbDec π K N ct = (pt, tagFull)) :
    ocbVerify π K N (tagOf [t₀, t₁, t₂]) ct =
      if tagFull[0] = t₀ ∧ tagFull[1] = t₁ ∧ tagFull[2] = t₂ then some pt else none := by
  rw [ocbVerify_eq, hdec]
  simp only [truncateTag_eq_iff]
  simp [tagOf]

/-- Settles O44: the outcomes of `exec_decrypt_seen`, `exec_decrypt_mismatch` and
`exec_decrypt_verified`, the last by the class of the candidate. -/
theorem decryptOutcomeTable : Obligations.DecryptOutcomeTable := by
  refine fun s => ⟨fun hkey w => exec_decrypt_unkeyed w hkey,
    fun hkey w hw => exec_decrypt_malformed hkey hw,
    fun hkey h t₀ t₁ t₂ ct pt u c tagFull hlen hu hc hdec => ?_⟩
  rw [← forwardDistance_eq] at hu
  subst hu
  rw [← candidate_eq] at hc
  have hverify := ocbVerify_tagOf t₀ t₁ t₂ hdec
  have hclass := classOf_candidateDistance s.div h
  have hdist := candidateDistance_eq s.div h
  rw [packet_eq]
  by_cases hseen : seen s c = true
  · rw [exec_decrypt_seen hkey hlen hc.symm hseen, if_pos ((seen_iff s c).mp hseen)]
  rw [if_neg (mt (seen_iff s c).mpr hseen)]
  have hunseen := Bool.eq_false_of_not_eq_true hseen
  by_cases htag : tagFull[0] = t₀ ∧ tagFull[1] = t₁ ∧ tagFull[2] = t₂
  · rw [if_pos htag] at hverify
    rw [exec_decrypt_verified hkey hlen hc.symm hunseen hverify, if_neg (not_not.mpr htag)]
    by_cases hgood : forwardDistance s.div h = 1
    · rw [hclass, if_pos hgood, if_pos hgood, applyAccept_of_good]
      rfl
    by_cases hlate : forwardDistance s.div h = 0 ∨ 227 ≤ forwardDistance s.div h
    · rw [hclass, if_neg hgood, if_neg hgood, if_pos hlate, if_pos hlate, applyAccept_of_late]
      rfl
    rw [if_neg (mt .inr hlate)] at hdist
    by_cases hlost : forwardDistance s.div h ≤ 127
    · rw [hclass, if_neg hgood, if_neg hgood, if_neg hlate, if_neg hlate, if_pos hlost,
        if_pos hlost, applyAccept_of_lost, hdist, ofInt_sub_one (by omega)]
      rfl
    · rw [hclass, if_neg hgood, if_neg hgood, if_neg hlate, if_neg hlate, if_neg hlost,
        if_neg hlost, applyAccept_of_resync, hdist, ofInt_sub_one (by omega)]
      rfl
  · rw [if_neg htag] at hverify
    rw [exec_decrypt_mismatch hkey hlen hc.symm hunseen hverify, if_pos htag]
    simp only [classOf_candidateDistance_resync_iff]

end Sys2Proof.Machine
end

section
/-! PROOFS. Round trips through the commands (41_ocb_core.md R95, 43_replay_window.md R115): what
one command seals under a key, another opens under it. -/

namespace Sys2Proof.Machine

/-- A packet verifies under the key and nonce that sealed it. -/
theorem ocbVerify_ocbEnc {π : PermPort} (hπ : π.Lawful) (K : Key) (N : Block) (Pt : List Byte) :
    ocbVerify π K N (truncateTag (ocbEnc π K N Pt).2) (ocbEnc π K N Pt).1 = some Pt := by
  rw [ocbVerify_eq, ocbDec_ocbEnc hπ, if_pos rfl]

/-- Settles O27: `exec_ocbDecrypt` on the ciphertext and the truncated tag of `exec_ocbEncrypt`. -/
theorem ocbCommandsRoundTrip : Obligations.OcbCommandsRoundTrip := by
  intro s s' K N Pt hlen
  refine ⟨_, _, exec_ocbEncrypt s K N hlen, ocbEnc_length Config.port K N Pt, ?_⟩
  rw [take_three_toList, ← truncateTag_toList,
    exec_ocbDecrypt s' K N _ ((ocbEnc_length Config.port K N Pt).trans_le hlen),
    ocbDec_ocbEnc config_port_lawful, if_pos rfl]

/-! ### Sealed packets -/

/-- `b` after accepting the packet of counter `c` at distance `z` with plaintext `pt`. -/
def State.accepting (b : State) (c : Counter) (z : Int) (pt : List Byte) : State :=
  (applyAccept c z (classOf Config.window z) b).answering
    ⟨.ok, classCode (classOf Config.window z), pt⟩

section
variable (b : State) (c c' : Counter) (z : Int) (pt : List Byte)

@[simp] theorem accepting_keyValid : (b.accepting c z pt).keyValid = b.keyValid := by
  obtain ⟨hkept, -⟩ := applyAccept_frame c z (classOf Config.window z) b
  exact hkept

@[simp] theorem accepting_key : (b.accepting c z pt).key = b.key := by
  obtain ⟨-, hkept, -⟩ := applyAccept_frame c z (classOf Config.window z) b
  exact hkept

@[simp] theorem accepting_outbox : (b.accepting c z pt).outbox =
    b.outbox ++ [⟨.ok, classCode (classOf Config.window z), pt⟩] := by
  obtain ⟨-, -, -, -, hkept, -⟩ := applyAccept_frame c z (classOf Config.window z) b
  exact congrArg (· ++ _) hkept

theorem accepting_div : (b.accepting c z pt).div = if z ≤ 0 then b.div else c := by
  simp only [State.accepting, answering_div, applyAccept_div, classOf_late_iff]

theorem accepting_good : (b.accepting c z pt).good = b.good + 1 := applyAccept_good ..

theorem accepting_late : (b.accepting c z pt).late = if z ≤ 0 then b.late + 1 else b.late := by
  simp only [State.accepting, answering_late, applyAccept_late, classOf_late_iff]

theorem accepting_lost : (b.accepting c z pt).lost =
    if z ≤ 0 then lostCorrected b.lost
    else if z = 1 then b.lost else b.lost + BitVec.ofInt 32 (z - 1) := by
  simp only [State.accepting, answering_lost, applyAccept_lost, classOf_late_iff, classOf_good_iff]

theorem accepting_resync : (b.accepting c z pt).resync =
    if Config.window.aheadMax < z then b.resync + 1 else b.resync := by
  simp only [State.accepting, answering_resync, applyAccept_resync, classOf_resync_iff]

theorem accepting_hist : (b.accepting c z pt).hist = b.hist.set (slotOf c) (some c) :=
  applyAccept_hist ..

theorem seen_accepting_self : seen (b.accepting c z pt) c = true := by
  simp [seen_of_hist_set c c (accepting_hist b c z pt)]

/-- An acceptance leaves the counters of other low bytes as seen or unseen as they were. -/
theorem seen_accepting_of_low_ne (h : low c ≠ low c') :
    seen (b.accepting c z pt) c' = seen b c' := by
  rw [seen_of_hist_set c c' (accepting_hist b c z pt), if_neg]
  exact fun hslot => h (congrArg BitVec.ofFin hslot)

end

/-- A packet sealed with the receiver's key under an unseen counter in reach is accepted. -/
theorem exec_decrypt_sealed {b : State} {K : Key} {c : Counter} {pt : List Byte} {z : Int}
    (hvalid : b.keyValid = true) (hkey : b.key = K) (hlen : pt.length ≤ Config.maxPlain)
    (hlo : -29 ≤ z) (hhi : z ≤ 226) (hc : c = b.div + BitVec.ofInt 128 z)
    (hunseen : seen b c = false) :
    exec (.decrypt (sealPacket Config.port K c pt)) b = .next (b.accepting c z pt) := by
  subst hkey
  have hcand : candidate Config.window b.div (low c) = c := by
    rw [hc, candidate_low b.div hlo hhi]
  have hdist : candidateDistance Config.window b.div (low c) = z := by
    rw [hc, candidateDistance_low b.div hlo hhi]
  have hct : (ocbEnc Config.port b.key (le16 c) pt).1.length ≤ Config.maxPlain :=
    (ocbEnc_length _ _ _ _).trans_le hlen
  have hexec := exec_decrypt_verified hvalid hct hcand hunseen
    (ocbVerify_ocbEnc config_port_lawful b.key (le16 c) pt)
  rwa [hdist] at hexec

/-- A keyed ENCRYPT seals under the counter after EIV. -/
theorem exec_encrypt_sealed {s : State} {K : Key} {c : Counter} {pt : List Byte}
    (hvalid : s.keyValid = true) (hkey : s.key = K) (hlen : pt.length ≤ Config.maxPlain)
    (hc : s.eiv + 1 = c) :
    exec (.encrypt pt) s = .next (State.answering { s with eiv := c }
      ⟨.ok, 0x00, sealPacket Config.port K c pt⟩) := by
  subst hc hkey
  exact (exec_encrypt s hlen).trans (by rw [if_pos hvalid])

/-- Settles O56: ENCRYPT seals under the next counter, and `exec_decrypt_sealed` opens it. -/
theorem pairedPacketsAreAccepted : Obligations.PairedPacketsAreAccepted := by
  intro a b pt z hvalidA hvalidB hkey hlen hlo hhi hnext hunseen
  refine ⟨_, _, _, exec_encrypt_sealed hvalidA rfl hlen rfl, rfl,
    exec_decrypt_sealed hvalidB hkey hlen hlo hhi hnext hunseen, accepting_outbox ..,
    seen_accepting_self .., fun hz => ?_, fun hz => ?_⟩
  · rw [accepting_div, if_neg (by omega)]
  · rw [accepting_div, if_pos hz]

/-! ### Packets out of order -/

theorem lostCorrected_add_one {n : EventCount} (h : n + 1 ≠ 0) : lostCorrected (n + 1) = n := by
  rw [lostCorrected, if_neg h]
  bv_omega

/-- Distances less than 256 apart lead to counters of different low bytes. -/
theorem low_ne_of_distance_ne (d : Counter) {z z' : Int} (hz : z - z' < 256) (hz' : z' - z < 256)
    (hne : z ≠ z') : low (d + BitVec.ofInt 128 z) ≠ low (d + BitVec.ofInt 128 z') :=
  mt (distance_eq_of_low_eq hz hz') hne

section
variable (b : State) (p₁ p₂ p₃ : List Byte)

/-- The receiver after the packets at 1 and at 3 ahead of its DIV. -/
def State.afterTwo : State :=
  (b.accepting (b.div + 1) 1 p₁).accepting (b.div + 3) 2 p₃

theorem afterTwo_div : (b.afterTwo p₁ p₃).div = b.div + 3 := accepting_div ..

theorem afterTwo_lost : (b.afterTwo p₁ p₃).lost = b.lost + 1 := by
  rw [State.afterTwo, accepting_lost, accepting_lost]
  rfl

/-- The packets at 1, 3 and 2 ahead of DIV, in that order: the second leaves the candidates of the
other two in reach and unseen. -/
theorem exec_decrypt_reordered {K : Key} (hvalid : b.keyValid = true) (hkey : b.key = K)
    (h₁ : p₁.length ≤ Config.maxPlain) (h₂ : p₂.length ≤ Config.maxPlain)
    (h₃ : p₃.length ≤ Config.maxPlain) (hunseen₁ : seen b (b.div + 1) = false)
    (hunseen₂ : seen b (b.div + 2) = false) (hunseen₃ : seen b (b.div + 3) = false) :
    exec (.decrypt (sealPacket Config.port K (b.div + 1) p₁)) b =
      .next (b.accepting (b.div + 1) 1 p₁) ∧
    exec (.decrypt (sealPacket Config.port K (b.div + 3) p₃)) (b.accepting (b.div + 1) 1 p₁) =
      .next (b.afterTwo p₁ p₃) ∧
    exec (.decrypt (sealPacket Config.port K (b.div + 2) p₂)) (b.afterTwo p₁ p₃) =
      .next ((b.afterTwo p₁ p₃).accepting (b.div + 2) (-1) p₂) := by
  have hlow₁₂ : low (b.div + 1) ≠ low (b.div + 2) :=
    low_ne_of_distance_ne b.div (z := 1) (z' := 2) (by decide) (by decide) (by decide)
  have hlow₁₃ : low (b.div + 1) ≠ low (b.div + 3) :=
    low_ne_of_distance_ne b.div (z := 1) (z' := 3) (by decide) (by decide) (by decide)
  have hlow₃₂ : low (b.div + 3) ≠ low (b.div + 2) :=
    low_ne_of_distance_ne b.div (z := 3) (z' := 2) (by decide) (by decide) (by decide)
  refine ⟨exec_decrypt_sealed hvalid hkey h₁ (by decide) (by decide) rfl hunseen₁,
    exec_decrypt_sealed ?_ ?_ h₃ (by decide) (by decide) ?_ ?_,
    exec_decrypt_sealed ?_ ?_ h₂ (by decide) (by decide) ?_ ?_⟩
  · rwa [accepting_keyValid]
  · rwa [accepting_key]
  · rw [accepting_div, if_neg (by decide), BitVec.add_assoc]
    rfl
  · rwa [seen_accepting_of_low_ne _ _ _ _ _ hlow₁₃]
  · rwa [State.afterTwo, accepting_keyValid, accepting_keyValid]
  · rwa [State.afterTwo, accepting_key, accepting_key]
  · rw [afterTwo_div, BitVec.add_assoc]
    rfl
  · rwa [State.afterTwo, seen_accepting_of_low_ne _ _ _ _ _ hlow₃₂,
      seen_accepting_of_low_ne _ _ _ _ _ hlow₁₂]

end

/-- Settles O57: the sender by `exec_encrypt_sealed`, the receiver by `exec_decrypt_reordered`. -/
theorem reorderedPacketsAreAccepted : Obligations.ReorderedPacketsAreAccepted := by
  intro a b p₁ p₂ p₃ hvalidA hvalidB hkey hdiv h₁ h₂ h₃ hunseen₁ hunseen₂ hunseen₃ hlost
  rw [← hdiv] at hunseen₁ hunseen₂ hunseen₃
  obtain ⟨hopen₁, hopen₃, hopen₂⟩ := exec_decrypt_reordered b p₁ p₂ p₃ hvalidB hkey h₁ h₂ h₃
    hunseen₁ hunseen₂ hunseen₃
  have hc₁ : a.eiv + 1 = b.div + 1 := by rw [hdiv]
  have hc₂ : b.div + 1 + 1 = b.div + 2 := BitVec.add_assoc ..
  have hc₃ : b.div + 2 + 1 = b.div + 3 := BitVec.add_assoc ..
  refine ⟨_, _, _, _, _, _, _, _, _, exec_encrypt_sealed hvalidA rfl h₁ hc₁, rfl,
    exec_encrypt_sealed hvalidA rfl h₂ hc₂, rfl, exec_encrypt_sealed hvalidA rfl h₃ hc₃, rfl,
    hopen₁, accepting_outbox .., hopen₃, accepting_outbox .., afterTwo_lost b p₁ p₃,
    hopen₂, accepting_outbox .., ?_, ?_, ?_, ?_, ?_⟩
  · rw [accepting_div, if_pos (by decide), afterTwo_div]
  · rw [accepting_good, State.afterTwo, accepting_good, accepting_good, BitVec.add_assoc,
      BitVec.add_assoc]
    rfl
  · rw [accepting_late, if_pos (by decide), State.afterTwo, accepting_late, accepting_late,
      if_neg (by decide), if_neg (by decide)]
  · rw [accepting_lost, if_pos (by decide), afterTwo_lost, lostCorrected_add_one hlost]
  · simp only [State.afterTwo, accepting_resync, Config.window]
    rfl

end Sys2Proof.Machine
end

section
/-! PROOFS. What commands do to DIV and HIST (43_replay_window.md R114, R116), and the packets that
fail for ever (70_reset_and_hazards.md R172, R173). -/

namespace Sys2Proof.Machine

/-! ### DIV and HIST after one command -/

/-- A command that installs no key keeps DIV and HIST, or it is a DECRYPT that accepts a counter in
reach: `perform_cases` as ReplayWindow sees it. -/
theorem perform_keeps_window_or_accepts (i : Instr) (s : State) (hi : installs i = false) :
    ((perform Config.params i s).keyValid = s.keyValid ∧
      (perform Config.params i s).div = s.div ∧ (perform Config.params i s).hist = s.hist) ∨
    ∃ (p : List Byte) (z : Int) (pt : List Byte), i = .decrypt p ∧ s.keyValid = true ∧ -29 ≤ z ∧
      z ≤ 226 ∧
      perform Config.params i s = s.accepting (s.div + BitVec.ofInt 128 z) z pt := by
  rcases perform_cases i s hi with
    ⟨e, _, ht⟩ | ⟨_, _, _, _, _, ht⟩ | ⟨p, _, _, _, ht⟩ |
    ⟨h, _, _, _, _, pt, c, z, k, rfl, _, hvalid, hc, hz, hk, _, _, ht⟩
  · exact .inl (ht ▸ ⟨rfl, rfl, rfl⟩)
  · exact .inl (ht ▸ ⟨rfl, rfl, rfl⟩)
  · exact .inl (ht ▸ ⟨rfl, rfl, rfl⟩)
  · obtain ⟨hlo, hhi⟩ := candidateDistance_bounds s.div h
    rw [← hz] at hlo hhi
    rw [candidate, ← hz] at hc
    subst hc hk
    exact .inr ⟨_, z, pt, rfl, hvalid, hlo, hhi, ht⟩

theorem ofInt_toNat {z : Int} (h : 0 ≤ z) : BitVec.ofInt 128 z = BitVec.ofNat 128 z.toNat := by
  rw [← BitVec.ofInt_natCast, Int.toNat_of_nonneg h]

/-- An acceptance moves DIV by its distance, and not at all for a late one. -/
theorem accepting_div_eq (s : State) (z : Int) (pt : List Byte) :
    (s.accepting (s.div + BitVec.ofInt 128 z) z pt).div = s.div + BitVec.ofNat 128 z.toNat := by
  rw [accepting_div]
  split_ifs with hz
  · rw [Int.toNat_of_nonpos hz]
    exact (BitVec.add_zero _).symm
  · rw [ofInt_toNat (by omega)]

/-- Settles O33: only an acceptance moves DIV, by its distance. -/
theorem divMovesOnlyForward : Obligations.DivMovesOnlyForward := by
  intro i s t hexec hi
  obtain rfl := perform_of_exec hexec
  rcases perform_keeps_window_or_accepts i s hi with
    ⟨_, hdiv, _⟩ | ⟨p, z, pt, rfl, _, _, hhi, ht⟩
  · exact ⟨⟨0, by decide, hdiv.trans (BitVec.add_zero _).symm⟩, fun _ => hdiv⟩
  · rw [ht]
    exact ⟨⟨z.toNat, by omega, accepting_div_eq s z pt⟩, fun hne => absurd rfl (hne p)⟩

/-! ### A run of commands -/

theorem runCommands_cons (i : Instr) (rest : List Instr) (s : State) :
    runCommands (i :: rest) s = runCommands rest (perform Config.params i s) := by
  simp only [runCommands, exec_eq_perform]

/-- DIV stands `j` ahead of the counter `c`, which is seen while that is at most LATE_MAX. -/
structure SeenBehind (c : Counter) (j : Nat) (s : State) : Prop where
  keyed : s.keyValid = true
  div_eq : s.div = c + BitVec.ofNat 128 j
  seen_of_near : j ≤ 29 → seen s c = true

/-- A counter seen at most 29 behind DIV stays seen: no other counter in reach has its low byte. -/
theorem seen_accepting_of_near {c : Counter} {j : Nat} {s : State} {z : Int} (pt : List Byte)
    (hs : SeenBehind c j s) (hj : j ≤ 29) (hlo : -29 ≤ z) (hhi : z ≤ 226) :
    seen (s.accepting (s.div + BitVec.ofInt 128 z) z pt) c = true := by
  have hc : c = s.div + BitVec.ofInt 128 (-(j : Int)) := by
    rw [hs.div_eq, BitVec.ofInt_neg, BitVec.ofInt_natCast, ← BitVec.sub_eq_add_neg,
      BitVec.add_sub_cancel]
  by_cases hz : z = -(j : Int)
  · rw [hz, ← hc]
    exact seen_accepting_self ..
  · rw [seen_accepting_of_low_ne]
    · exact hs.seen_of_near hj
    · rw [hc]
      exact low_ne_of_distance_ne s.div (by omega) (by omega) hz

theorem SeenBehind.perform {c : Counter} {j : Nat} {s : State} {i : Instr} (hs : SeenBehind c j s)
    (hi : installs i = false) :
    ∃ j' ≤ j + 226, SeenBehind c j' (perform Config.params i s) := by
  rcases perform_keeps_window_or_accepts i s hi with
    ⟨hvalid, hdiv, hhist⟩ | ⟨p, z, pt, _, _, hlo, hhi, ht⟩
  · refine ⟨j, by omega, hvalid.trans hs.keyed, hdiv.trans hs.div_eq, fun hj => ?_⟩
    rw [seen, histAt, hhist]
    exact hs.seen_of_near hj
  · rw [ht]
    refine ⟨j + z.toNat, by omega, ?_, ?_, fun hj => ?_⟩
    · rw [accepting_keyValid, hs.keyed]
    · rw [accepting_div_eq, hs.div_eq, BitVec.ofNat_add, BitVec.add_assoc]
    · exact seen_accepting_of_near pt hs (by omega) hlo hhi

theorem SeenBehind.runCommands {c : Counter} {j : Nat} {s u : State} {cmds : List Instr}
    (hs : SeenBehind c j s) (hcmds : ∀ i ∈ cmds, installs i = false)
    (hrun : runCommands cmds s = .next u) : ∃ j' ≤ j + 226 * cmds.length, SeenBehind c j' u := by
  induction cmds generalizing s j with
  | nil =>
    obtain rfl := Host.Outcome.next.inj hrun
    exact ⟨j, by simp, hs⟩
  | cons i rest ih =>
    rw [runCommands_cons] at hrun
    obtain ⟨hi, hrest⟩ := List.forall_mem_cons.mp hcmds
    obtain ⟨j₁, hj₁, hs₁⟩ := hs.perform hi
    obtain ⟨j', hj', hu⟩ := ih hs₁ hrest hrun
    exact ⟨j', by rw [List.length_cons]; omega, hu⟩

/-- An accepted counter is seen, at or behind DIV. -/
theorem seenBehind_accepting {s : State} {z : Int} (pt : List Byte) (hvalid : s.keyValid = true) :
    SeenBehind (s.div + BitVec.ofInt 128 z) (-z).toNat
      (s.accepting (s.div + BitVec.ofInt 128 z) z pt) := by
  refine ⟨(accepting_keyValid ..).trans hvalid, ?_, fun _ => seen_accepting_self ..⟩
  rw [accepting_div_eq, BitVec.add_assoc, ← BitVec.ofInt_natCast, ← BitVec.ofInt_natCast,
    ← BitVec.ofInt_add]
  congr 2
  omega

/-- A DECRYPT that answers OK has accepted the candidate of its header byte. -/
theorem decrypt_ok_accepts {s t : State} {h t₀ t₁ t₂ : Byte} {ct : List Byte} {r : Response}
    (hexec : exec (.decrypt (h :: t₀ :: t₁ :: t₂ :: ct)) s = .next t)
    (hout : t.outbox = s.outbox ++ [r]) (hok : r.status = .ok) :
    s.keyValid = true ∧ ∃ pt : List Byte, t = s.accepting
      (s.div + BitVec.ofInt 128 (candidateDistance Config.window s.div h))
      (candidateDistance Config.window s.div h) pt := by
  obtain rfl := perform_of_exec hexec
  rcases perform_cases (.decrypt (h :: t₀ :: t₁ :: t₂ :: ct)) s rfl with
    ⟨e, he, ht⟩ | ⟨_, _, _, _, hne, _⟩ | ⟨_, hi, _⟩ |
    ⟨_, _, _, _, _, pt, c, z, k, hi, _, hvalid, hc, hz, hk, _, _, ht⟩
  · exact absurd ((status_of_raising (ht ▸ hout)).symm.trans hok) he
  · exact absurd rfl (hne _)
  · exact nomatch hi
  · injection hi with hw
    injection hw with hh
    subst hc hz hk hh
    exact ⟨hvalid, pt, ht⟩

/-- Settles O58: `SeenBehind` holds after the acceptance and along the run, and DIV's lead over the
counter stays below 2^128, so at most 29 as a word means at most 29 in fact. -/
theorem acceptedCountersAreReplays : Obligations.AcceptedCountersAreReplays := by
  intro s t u h t₀ t₁ t₂ ct r c cmds hexec hout hok hc hcmds hlen hrun hnear t₀' t₁' t₂' ct' hct'
  obtain ⟨hvalid, pt, rfl⟩ := decrypt_ok_accepts hexec hout hok
  obtain ⟨hlo, -⟩ := candidateDistance_bounds s.div h
  have hlow : low c = h := hc ▸ low_candidate Config.window s.div h
  obtain ⟨j, hj, hu⟩ := (seenBehind_accepting pt hvalid).runCommands hcmds hrun
  rw [← candidate, ← hc] at hu
  have hlead : (u.div - c).toNat = j := by
    rw [hu.div_eq, BitVec.add_comm, BitVec.add_sub_cancel, BitVec.toNat_ofNat]
    omega
  have hback : c = u.div + BitVec.ofInt 128 (-(j : Int)) := by
    rw [hu.div_eq, BitVec.ofInt_neg, BitVec.ofInt_natCast, ← BitVec.sub_eq_add_neg,
      BitVec.add_sub_cancel]
  have hcand : candidate Config.window u.div h = c := by
    rw [← hlow, hback]
    exact candidate_low u.div (by omega) (by omega)
  rw [packet_eq]
  exact exec_decrypt_seen hu.keyed hct' hcand (hu.seen_of_near (by omega))

/-! ### Packets out of reach -/

/-- The status of a packet that does not verify at its candidate. -/
theorem exec_decrypt_fails {s : State} {h : Byte} {T : Tag} {ct : List Byte}
    (hkey : s.keyValid = true) (hlen : ct.length ≤ Config.maxPlain)
    (hverify : ocbVerify Config.port s.key (le16 (candidate Config.window s.div h)) T ct = none) :
    exec (.decrypt (h :: (T.toList ++ ct))) s = .next (s.raising
      (if seen s (candidate Config.window s.div h) then .replay
        else if candidateDistance Config.window s.div h ≤ 127 then .authenticationFailure
        else .outOfWindow)) := by
  by_cases hseen : seen s (candidate Config.window s.div h) = true
  · rw [if_pos hseen]
    exact exec_decrypt_seen hkey hlen rfl hseen
  · have hunseen := Bool.eq_false_of_not_eq_true hseen
    have hclass : classOf Config.window (candidateDistance Config.window s.div h) = .resync ↔
        ¬ candidateDistance Config.window s.div h ≤ 127 := classOf_resync_iff.trans not_le.symm
    rw [if_neg hseen, exec_decrypt_mismatch hkey hlen rfl hunseen hverify]
    simp only [hclass, ite_not]

/-- Settles O59, packet by packet: each fails by `exec_decrypt_fails`, and what decides the next one
is as it was. -/
theorem outOfReachPacketsNeverMoveDiv : Obligations.OutOfReachPacketsNeverMoveDiv := by
  intro s packets hkey hpackets
  refine ⟨fun q hq => ?_, ?_⟩
  · obtain ⟨hahead, hbehind, -⟩ := hpackets q hq
    exact countersOutsideTheReachAreNeverTried s.div q.1 hahead hbehind
  induction packets generalizing s with
  | nil => simp [runCommands]
  | cons q rest ih =>
    obtain ⟨⟨_, _, hlen, hverify⟩, hrest⟩ := List.forall_mem_cons.mp hpackets
    have hfails := perform_of_exec (exec_decrypt_fails hkey hlen hverify)
    rw [List.map_cons, runCommands_cons, hfails]
    refine (ih (s.raising _) hkey hrest).trans ?_
    simp only [State.raising, answering_outbox, List.map_cons, List.append_assoc,
      List.singleton_append]
    rfl

end Sys2Proof.Machine
end

section
/-! PROOFS. Key installation by NEW (44_cryptstate.md R121, R122): what each answer of the random
source does. -/

namespace Sys2Proof.Machine

theorem exec_new (s : State) :
    exec (.new []) s = .next (newWithAnswer (rngFill s) (rngTaken s)) := rfl

theorem rngFill_cons {s : State} {a : Option Draw} {rest : List (Option Draw)}
    (h : s.rng = a :: rest) : rngFill s = a := by
  rw [rngFill, h]

theorem rngTaken_cons {s : State} {a : Option Draw} {rest : List (Option Draw)}
    (h : s.rng = a :: rest) : rngTaken s = { s with rng := rest, rngCalls := s.rngCalls + 1 } := by
  rw [rngTaken, h, List.tail_cons]

/-- The 48 bytes of a draw are a key and the images of two counters. -/
theorem newWithAnswer_some {R : Draw} {K : Key} {e d : Counter} (s : State)
    (hR : R.toList = K.toList ++ (le16 e).toList ++ (le16 d).toList) :
    newWithAnswer (some R) s = (install K e d s).answering ⟨.ok, 0x00, []⟩ := by
  have hkey : R.toList.take 16 = K.toList := by
    rw [hR, List.append_assoc, List.take_left' Vector.length_toList]
  have heiv : (R.toList.drop 16).take 16 = (le16 e).toList := by
    rw [hR, List.append_assoc, List.drop_left' Vector.length_toList,
      List.take_left' Vector.length_toList]
  have hdiv : R.toList.drop 32 = (le16 d).toList := by
    rw [hR, List.drop_left' (by simp)]
  rw [newWithAnswer, hkey, heiv, hdiv, blockOf_toList, valLe_le16, valLe_le16,
    complete_eq_answering, noInfo]

/-- Settles O40: the head of the list is the answer, and `newWithAnswer_some` cuts it up. -/
theorem newInstallsTheDraw : Obligations.NewInstallsTheDraw := by
  refine fun s => ⟨fun p => ⟨rfl, fun hp => exec_of_not_layoutOk s hp⟩,
    fun R answers K e d hrng hR => ?_, fun answers hrng => ?_⟩
  · rw [exec_new, rngFill_cons hrng, rngTaken_cons hrng, newWithAnswer_some _ hR]
    rfl
  · rw [exec_new, rngFill_cons hrng, rngTaken_cons hrng]
    rfl

/-- Settles O41 by the two ends of `newWithAnswer_cases`. -/
theorem newIsAllOrNothing : Obligations.NewIsAllOrNothing := by
  refine fun s => ⟨_, exec_new s, ?_⟩
  obtain hraise | ⟨K, e, d, hinstall⟩ := newWithAnswer_cases (rngFill s) (rngTaken s)
  · rw [hraise]
    exact .inl rfl
  · rw [hinstall]
    exact .inr ⟨K, e, d, rfl⟩

end Sys2Proof.Machine
end

section
/-! PROOFS. What a command's answer depends on (10_state.md R31, 20_memory.md R41, 44_cryptstate.md
R134, 70_reset_and_hazards.md R178): the commands in four groups, by what they read. -/

namespace Sys2Proof.Machine

/-- States that differ in no more than one more response tell which response it was. -/
theorem answering_injective {s : State} {r r' : Response}
    (h : s.answering r = s.answering r') : r = r' :=
  response_unique (s := s) rfl (congrArg State.outbox h).symm

/-! ### The commands that read no state -/

/-- A keyless command gives one answer in every state, no longer than its own payload. -/
theorem perform_keyless (P : Params) {i : Instr} (hi : keyless i = true) :
    ∃ r : Response, r.payload.length ≤ i.payload.length ∧ r.status ≠ .notKeyed ∧
      ∀ s : State, perform P i s = s.answering r := by
  by_cases hlayout : LayoutOk P.maxPlain i
  case neg =>
    exact ⟨⟨.illegalCommand, 0x00, []⟩, Nat.zero_le _, by simp,
      fun s => perform_of_not_layoutOk s hlayout⟩
  cases i <;> simp only [keyless, Bool.false_eq_true] at hi <;>
    simp only [LayoutOk] at hlayout <;> simp only [Instr.payload]
  case gfZero p =>
    exact ⟨⟨.ok, 0x00, zeroBytes p⟩, by simp [zeroBytes], by simp, fun _ => rfl⟩
  case gfXor p =>
    have hop : xorOperands p = some (p.take (p.length / 2), p.drop (p.length / 2)) :=
      if_pos hlayout
    refine ⟨⟨.ok, 0x00, xorb (p.take (p.length / 2)) (p.drop (p.length / 2))⟩, ?_, by simp,
      fun s => by simp only [perform, gfXorCommand, hop]; rfl⟩
    simp only [xorb_length, List.length_take, List.length_drop]
    omega
  case gfDouble p =>
    have hop : blockOperand p = some (blockOf p) := if_pos hlayout
    exact ⟨⟨.ok, 0x00, (dbl (blockOf p)).toList⟩, by simp [hlayout], by simp,
      fun s => by simp only [perform, gfDoubleCommand, hop]; rfl⟩
  case gfTriple p =>
    have hop : blockOperand p = some (blockOf p) := if_pos hlayout
    exact ⟨⟨.ok, 0x00, (tri (blockOf p)).toList⟩, by simp [hlayout], by simp,
      fun s => by simp only [perform, gfTripleCommand, hop]; rfl⟩
  case ocbEncrypt p =>
    have hop : ocbEncryptOperands P.maxPlain p = some (_, _, _) := if_pos (by omega)
    refine ⟨⟨.ok, 0x00, _⟩, ?_, by simp, fun s => by
      simp only [perform, ocbEncryptCommand, hop]; rfl⟩
    simp only [List.length_append, ocbEnc_length, Vector.length_toList, List.length_drop]
    omega
  case ocbDecrypt p =>
    have hop : ocbDecryptOperands P.maxPlain p = some (_, _, _, _) := if_pos (by omega)
    cases hverify : ocbVerify P.port (blockOf (p.take 16)) (blockOf ((p.drop 16).take 16))
        (tagOf ((p.drop 32).take 3)) (p.drop 35) with
    | none =>
      exact ⟨⟨.authenticationFailure, 0x00, []⟩, Nat.zero_le _, by simp, fun s => by
        simp only [perform, ocbDecryptCommand, hop, hverify]; rfl⟩
    | some Pt =>
      refine ⟨⟨.ok, 0x00, Pt⟩, ?_, by simp, fun s => by
        simp only [perform, ocbDecryptCommand, hop, hverify]; rfl⟩
      simp only [ocbVerify_length hverify, List.length_drop]
      omega

/-! ### The commands that read the state and write none -/

/-- The two states agree in all that RW_PROBE and READ_REG look at: KEY_VALID, the event counters
and, under a key, EIV, DIV and HIST. -/
structure SameView (s s' : State) : Prop where
  keyValid : s'.keyValid = s.keyValid
  eiv : s.keyValid = true → s'.eiv = s.eiv
  div : s.keyValid = true → s'.div = s.div
  hist : s.keyValid = true → s'.hist = s.hist
  good : s'.good = s.good
  late : s'.late = s.late
  lost : s'.lost = s.lost
  resync : s'.resync = s.resync

theorem sameView_refl (s : State) : SameView s s :=
  ⟨rfl, fun _ => rfl, fun _ => rfl, fun _ => rfl, rfl, rfl, rfl, rfl⟩

theorem sameView_answering (s : State) (r : Response) : SameView s (s.answering r) :=
  ⟨rfl, fun _ => rfl, fun _ => rfl, fun _ => rfl, rfl, rfl, rfl, rfl⟩

section
variable {s s' : State}

/-- An answer that needs a key: NotKeyed without one, and with one the same from the same values. -/
theorem keyed_answer_alike {a a' : Response} (hlen : a.payload.length ≤ 17)
    (hvalid : s'.keyValid = s.keyValid) (ha : s.keyValid = true → a' = a) :
    ∃ r : Response, r.payload.length ≤ 17 ∧
      (if s.keyValid then s.answering a else s.raising .notKeyed) = s.answering r ∧
      (if s'.keyValid then s'.answering a' else s'.raising .notKeyed) = s'.answering r := by
  rw [hvalid]
  cases hkey : s.keyValid with
  | false => exact ⟨⟨.notKeyed, 0x00, []⟩, by simp, rfl, rfl⟩
  | true => exact ⟨a, hlen, rfl, by rw [ha hkey]; rfl⟩

theorem readRegister_alike (reg : Reg) (hview : SameView s s') :
    ∃ r : Response, r.payload.length ≤ 17 ∧ readRegister reg s = s.answering r ∧
      readRegister reg s' = s'.answering r := by
  obtain ⟨hvalid, heiv, hdiv, -, hgood, hlate, hlost, hresync⟩ := hview
  cases reg with
  | key => exact ⟨⟨.illegalCommand, 0x00, []⟩, by simp, rfl, rfl⟩
  | eiv => exact keyed_answer_alike (by simp) hvalid fun hkey => by rw [heiv hkey]
  | div => exact keyed_answer_alike (by simp) hvalid fun hkey => by rw [hdiv hkey]
  | good => exact ⟨⟨.ok, 0x00, le4 s.good⟩, by simp [le4], rfl, by rw [← hgood]; rfl⟩
  | late => exact ⟨⟨.ok, 0x00, le4 s.late⟩, by simp [le4], rfl, by rw [← hlate]; rfl⟩
  | lost => exact ⟨⟨.ok, 0x00, le4 s.lost⟩, by simp [le4], rfl, by rw [← hlost]; rfl⟩
  | resync => exact ⟨⟨.ok, 0x00, le4 s.resync⟩, by simp [le4], rfl, by rw [← hresync]; rfl⟩
  | status =>
    exact ⟨⟨.ok, 0x00, [statusRegister s.keyValid]⟩, by simp, rfl, by rw [← hvalid]; rfl⟩

theorem readRegCommand_alike (p : List Byte) (hview : SameView s s') :
    ∃ r : Response, r.payload.length ≤ 17 ∧ readRegCommand p s = s.answering r ∧
      readRegCommand p s' = s'.answering r := by
  simp only [readRegCommand]
  cases byteOperand p with
  | none => exact ⟨⟨.illegalCommand, 0x00, []⟩, by simp, rfl, rfl⟩
  | some b =>
    dsimp only
    cases regOfIndex b with
    | none => exact ⟨⟨.illegalCommand, 0x00, []⟩, by simp, rfl, rfl⟩
    | some reg => exact readRegister_alike reg hview

theorem rwProbeCommand_alike (P : Params) (p : List Byte) (hview : SameView s s') :
    ∃ r : Response, r.payload.length ≤ 17 ∧ rwProbeCommand P p s = s.answering r ∧
      rwProbeCommand P p s' = s'.answering r := by
  simp only [rwProbeCommand]
  cases byteOperand p with
  | none => exact ⟨⟨.illegalCommand, 0x00, []⟩, by simp, rfl, rfl⟩
  | some h =>
    refine keyed_answer_alike (by simp) hview.keyValid fun hkey => ?_
    have hseen (c : Counter) : seen s' c = seen s c := by
      simp only [seen, histAt, hview.hist hkey]
    simp only [hview.div hkey, hseen]

end

/-- A command that neither installs a key nor handles packets gives states of the same view the same
answer, and writes nothing. -/
theorem perform_alike (P : Params) {i : Instr} {s s' : State} (hi : installs i = false)
    (hpacket : ∀ p : List Byte, i ≠ .encrypt p ∧ i ≠ .decrypt p) (hview : SameView s s') :
    ∃ r : Response, r.payload.length ≤ max i.payload.length 17 ∧
      perform P i s = s.answering r ∧ perform P i s' = s'.answering r := by
  cases hkeyless : keyless i with
  | true =>
    obtain ⟨r, hlen, -, hanswer⟩ := perform_keyless P hkeyless
    exact ⟨r, hlen.trans (le_max_left ..), hanswer s, hanswer s'⟩
  | false =>
    cases i <;> simp only [keyless, installs, Bool.true_eq_false] at hi hkeyless
    case encrypt p => exact absurd rfl (hpacket p).1
    case decrypt p => exact absurd rfl (hpacket p).2
    case rwProbe p =>
      obtain ⟨r, hlen, hanswer⟩ := rwProbeCommand_alike P p hview
      exact ⟨r, hlen.trans (le_max_right ..), hanswer⟩
    case readReg p =>
      obtain ⟨r, hlen, hanswer⟩ := readRegCommand_alike p hview
      exact ⟨r, hlen.trans (le_max_right ..), hanswer⟩

/-- Such a command, sent again, gives the same answer. -/
theorem perform_twice (P : Params) {i : Instr} (hi : installs i = false)
    (hpacket : ∀ p : List Byte, i ≠ .encrypt p ∧ i ≠ .decrypt p) (s : State) :
    ∃ r : Response, perform P i s = s.answering r ∧
      perform P i (s.answering r) = (s.answering r).answering r := by
  obtain ⟨r, -, ht, -⟩ := perform_alike P hi hpacket (sameView_refl s)
  obtain ⟨r', -, hr', ht'⟩ := perform_alike P hi hpacket (sameView_answering s r)
  obtain rfl : r = r' := answering_injective (ht.symm.trans hr')
  exact ⟨r, ht, ht'⟩

/-! ### The commands that handle packets, without a key -/

/-- Without a key, a command that installs none raises the same status whatever KEY, EIV and DIV
hold, or answers as `perform_alike` says. -/
theorem perform_unkeyed_alike {i : Instr} {s s' : State} (hi : installs i = false)
    (hkey : s.keyValid = false) (hview : SameView s s') :
    ∃ r : Response, perform Config.params i s = s.answering r ∧
      perform Config.params i s' = s'.answering r := by
  have hkey' : s'.keyValid = false := hview.keyValid.trans hkey
  by_cases hdecrypt : ∃ w, i = .decrypt w
  · obtain ⟨w, rfl⟩ := hdecrypt
    exact ⟨_, perform_of_exec (exec_decrypt_unkeyed w hkey),
      perform_of_exec (exec_decrypt_unkeyed w hkey')⟩
  by_cases hencrypt : ∃ p, i = .encrypt p
  · obtain ⟨p, rfl⟩ := hencrypt
    by_cases hlen : p.length ≤ Config.maxPlain
    · have hraise {u : State} (hu : u.keyValid = false) :
          perform Config.params (.encrypt p) u = u.raising .notKeyed :=
        perform_of_exec ((exec_encrypt u hlen).trans (by rw [if_neg (ne_true_of_eq_false hu)]))
      exact ⟨_, hraise hkey, hraise hkey'⟩
    · exact ⟨_, perform_of_exec (exec_of_not_layoutOk s hlen),
        perform_of_exec (exec_of_not_layoutOk s' hlen)⟩
  · obtain ⟨r, -, hanswer⟩ := perform_alike Config.params hi
      (fun p => ⟨fun h => hencrypt ⟨p, h⟩, fun h => hdecrypt ⟨p, h⟩⟩) hview
    exact ⟨r, hanswer⟩

/-! ### The commands that install a key -/

/-- `f` does one thing in every state: it raises one status, or it installs one key and its
counters. -/
def InstallsOrRaises (f : State → State) : Prop :=
  (∃ e : Status, e ≠ .notKeyed ∧ ∀ s, f s = s.raising e) ∨
    ∃ (K : Key) (e d : Counter), ∀ s, f s = (install K e d s).answering ⟨.ok, 0x00, []⟩

theorem setKeyCommand_installsOrRaises (p : List Byte) : InstallsOrRaises (setKeyCommand p) := by
  by_cases hlayout : LayoutOk Config.maxPlain (.setKey p)
  · obtain ⟨k, e, d, hk, he, hd, rfl⟩ := hlayout
    have hexec (s : State) := perform_of_exec (exec_setKey s hk he hd)
    simp only [perform] at hexec
    split_ifs at hexec with hkey hiv
    · exact .inl ⟨.invalidKeyLength, by simp, hexec⟩
    · exact .inl ⟨.invalidIVLength, by simp, hexec⟩
    · exact .inr ⟨_, _, _, hexec⟩
  · exact .inl ⟨.illegalCommand, by simp, fun s =>
      perform_of_not_layoutOk (P := Config.params) s hlayout⟩

theorem newWithAnswer_installsOrRaises (answer : Option Draw) :
    InstallsOrRaises (newWithAnswer answer) := by
  cases answer with
  | none => exact .inl ⟨.randomnessUnavailable, by simp, fun _ => rfl⟩
  | some R => exact .inr ⟨_, _, _, fun _ => rfl⟩

/-- What an installing command does is fixed by the command and the random source, which only NEW
asks. -/
theorem perform_of_installs (P : Params) {i : Instr} (s : State) (hi : installs i = true) :
    ∃ f g : State → State, InstallsOrRaises f ∧ (g = id ∨ i = .new [] ∧ g = rngTaken) ∧
      ∀ s' : State, s'.rng = s.rng → s'.rngCalls = s.rngCalls → perform P i s' = f (g s') := by
  cases i <;> simp only [installs, Bool.false_eq_true] at hi
  case setKey p =>
    exact ⟨_, id, setKeyCommand_installsOrRaises p, .inl rfl, fun _ _ _ => rfl⟩
  case new p =>
    cases p with
    | nil =>
      refine ⟨_, rngTaken, newWithAnswer_installsOrRaises (rngFill s), .inr ⟨rfl, rfl⟩,
        fun s' hrng hcalls => ?_⟩
      have hfill : rngFill s' = rngFill s := by rw [rngFill, rngFill, hrng, hcalls]
      rw [← hfill]
      rfl
    | cons b bs =>
      exact ⟨fun s => s.raising .illegalCommand, id, .inl ⟨_, by simp, fun _ => rfl⟩, .inl rfl,
        fun _ _ _ => rfl⟩

/-- Settles O2: an installation writes the three values over, any other command answers without them
by `perform_unkeyed_alike`. -/
theorem unkeyedValuesAreUnobservable : Obligations.UnkeyedValuesAreUnobservable := by
  intro i s k e d hkey
  refine ⟨_, _, exec_eq_perform i s, exec_eq_perform i _, ?_⟩
  cases hi : installs i with
  | true =>
    obtain ⟨f, g, hf, hg, hperform⟩ := perform_of_installs Config.params s hi
    have hsame : (g s).keyValid = false ∧ g { s with key := k, eiv := e, div := d } =
        { g s with key := k, eiv := e, div := d } := by
      obtain rfl | ⟨-, rfl⟩ := hg <;> exact ⟨hkey, rfl⟩
    obtain ⟨hvalid, hgs⟩ := hsame
    rw [hperform s rfl rfl, hperform { s with key := k, eiv := e, div := d } rfl rfl, hgs]
    obtain ⟨_, -, hraise⟩ | ⟨_, _, _, hinstall⟩ := hf
    · rw [hraise, hraise]
      exact ⟨rfl, fun h => absurd (hvalid.symm.trans h) (by simp), fun _ => rfl⟩
    · rw [hinstall, hinstall]
      exact ⟨rfl, fun _ => rfl, fun h => nomatch h⟩
  | false =>
    have hnone {α : Prop} (h : s.keyValid = true) : α := absurd (hkey.symm.trans h) (by simp)
    obtain ⟨r, ht, ht'⟩ := perform_unkeyed_alike
      (s' := { s with key := k, eiv := e, div := d }) hi hkey
      ⟨rfl, hnone, hnone, hnone, rfl, rfl, rfl, rfl⟩
    rw [ht, ht']
    exact ⟨rfl, fun h => hnone h, fun _ => rfl⟩

/-- Settles O53: an installation gives both states its key, any other command answers by
`perform_alike`. -/
theorem keyIsNeverReadBack : Obligations.KeyIsNeverReadBack := by
  intro i s t k hpacket hexec
  obtain rfl := perform_of_exec hexec
  refine ⟨_, exec_eq_perform i _, ?_⟩
  cases hi : installs i with
  | true =>
    obtain ⟨f, g, hf, hg, hperform⟩ := perform_of_installs Config.params s hi
    have hgs : g { s with key := k } = { g s with key := k } := by
      obtain rfl | ⟨-, rfl⟩ := hg <;> rfl
    rw [hperform s rfl rfl, hperform { s with key := k } rfl rfl, hgs]
    obtain ⟨_, -, hraise⟩ | ⟨_, _, _, hinstall⟩ := hf
    · rw [hraise, hraise]
      exact ⟨rfl, rfl, .inl rfl⟩
    · rw [hinstall, hinstall]
      exact ⟨rfl, rfl, .inr rfl⟩
  | false =>
    obtain ⟨r, -, ht, ht'⟩ := perform_alike Config.params (s := s)
      (s' := { s with key := k }) hi hpacket
      ⟨rfl, fun _ => rfl, fun _ => rfl, fun _ => rfl, rfl, rfl, rfl, rfl⟩
    rw [ht, ht']
    exact ⟨rfl, rfl, .inl rfl⟩

/-- Settles O51: SET_KEY installs the same key over the first one, any other command answers twice
by `perform_twice`. -/
theorem repeatedCommandsAreIdempotent : Obligations.RepeatedCommandsAreIdempotent := by
  intro i s t t' hne hexec hexec'
  obtain rfl := perform_of_exec hexec
  obtain rfl := perform_of_exec hexec'
  cases hi : installs i with
  | true =>
    obtain ⟨f, g, hf, hg, hperform⟩ := perform_of_installs Config.params s hi
    obtain rfl | ⟨rfl, -⟩ := hg
    case inr => exact absurd rfl (hne []).1
    obtain ⟨e, -, hraise⟩ | ⟨K, e, d, hinstall⟩ := hf
    · rw [hperform s rfl rfl, id, hraise, hperform (s.raising e) rfl rfl, id, hraise]
      exact ⟨sameRecord_refl _, _, rfl, List.append_assoc ..⟩
    · rw [hperform s rfl rfl, id, hinstall,
        hperform ((install K e d s).answering ⟨.ok, 0x00, []⟩) rfl rfl, id, hinstall]
      exact ⟨sameRecord_refl _, _, rfl, List.append_assoc ..⟩
  | false =>
    obtain ⟨r, ht, ht'⟩ := perform_twice Config.params hi (fun p => (hne p).2) s
    rw [ht, ht']
    exact ⟨sameRecord_refl _, r, rfl, List.append_assoc ..⟩

end Sys2Proof.Machine
end

section
/-! PROOFS. What every command leaves alone (20_memory.md R41, R44) and that it answers once
(70_reset_and_hazards.md R169). -/

namespace Sys2Proof.Machine

/-- Settles O50, over the cases of `perform_cases` and `perform_install_cases`. -/
theorem writeFootprints : Obligations.WriteFootprints := by
  intro i s t hexec
  obtain rfl := perform_of_exec hexec
  cases hi : installs i with
  | false =>
    rcases perform_cases i s hi with
      ⟨e, _, ht⟩ | ⟨_, _, _, _, _, ht⟩ | ⟨p, rfl, _, _, ht⟩ |
      ⟨_, _, _, _, _, _, c, z, k, rfl, _, _, _, _, _, _, _, ht⟩ <;> rw [ht]
    · exact ⟨rfl, fun _ => ⟨rfl, rfl⟩, fun _ _ => rfl, fun _ _ => ⟨rfl, rfl⟩,
        fun _ => ⟨rfl, rfl, rfl, rfl⟩, fun _ => ⟨rfl, rfl⟩⟩
    · exact ⟨rfl, fun _ => ⟨rfl, rfl⟩, fun _ _ => rfl, fun _ _ => ⟨rfl, rfl⟩,
        fun _ => ⟨rfl, rfl, rfl, rfl⟩, fun _ => ⟨rfl, rfl⟩⟩
    · exact ⟨rfl, fun _ => ⟨rfl, rfl⟩, fun _ hne => absurd rfl (hne p), fun _ _ => ⟨rfl, rfl⟩,
        fun _ => ⟨rfl, rfl, rfl, rfl⟩, fun _ => ⟨rfl, rfl⟩⟩
    · obtain ⟨hvalid, hkey, heiv, hinbox, -, hrng, hcalls⟩ := applyAccept_frame c z k s
      exact ⟨hinbox, fun _ => ⟨hkey, hvalid⟩, fun _ _ => heiv, fun _ hne => absurd rfl (hne _),
        fun hne => absurd rfl (hne _), fun _ => ⟨hrng, hcalls⟩⟩
  | true =>
    have hinstall {α : Prop} (h : true = false) : α := nomatch h
    obtain ⟨s', hs', hend⟩ := perform_install_cases i s hi
    have hkept : s'.inbox = s.inbox ∧
        (s'.good = s.good ∧ s'.late = s.late ∧ s'.lost = s.lost ∧ s'.resync = s.resync) ∧
        ((∀ p : List Byte, i ≠ .new p) → s'.rng = s.rng ∧ s'.rngCalls = s.rngCalls) := by
      obtain rfl | ⟨rfl, rfl⟩ := hs'
      · exact ⟨rfl, ⟨rfl, rfl, rfl, rfl⟩, fun _ => ⟨rfl, rfl⟩⟩
      · exact ⟨rfl, ⟨rfl, rfl, rfl, rfl⟩, fun hne => absurd rfl (hne [])⟩
    obtain ⟨hinbox, hcounters, hrng⟩ := hkept
    obtain ⟨e, _, ht⟩ | ⟨K, e, d, ht⟩ := hend <;> rw [ht] <;>
      exact ⟨hinbox, hinstall, hinstall, hinstall, fun _ => hcounters, hrng⟩

/-- Settles O48: the response by `perform_raises_or_completes`, the inputs by the footprint. -/
theorem everyCommandAnswersOnce : Obligations.EveryCommandAnswersOnce := by
  intro i s
  obtain ⟨hinbox, -⟩ := writeFootprints i s _ (exec_eq_perform i s)
  obtain ⟨s', hkept, ⟨-, e, ht⟩ | ⟨info, payload, ht⟩⟩ := perform_raises_or_completes i s
  · exact ⟨_, ⟨e, 0x00, []⟩, exec_eq_perform i s,
      by rw [ht, State.raising, answering_outbox, hkept], hinbox⟩
  · exact ⟨_, ⟨.ok, info, payload⟩, exec_eq_perform i s,
      by rw [ht, answering_outbox, hkept], hinbox⟩

end Sys2Proof.Machine
end

section
/-! PROOFS. Commands and KEY_VALID (60_exceptions.md R149, 44_cryptstate.md R134): which commands
need a key, and what each answers without one. -/

namespace Sys2Proof.Machine

/-! ### The commands that need a key -/

/-- The status of a command's response is that of the answer it is known to give. -/
theorem status_of_answering {s s' : State} {r r' : Response} (hs : s'.outbox = s.outbox)
    (h : (s'.answering r').outbox = s.outbox ++ [r]) : r.status = r'.status :=
  congrArg Response.status (response_unique hs h)

theorem regOfIndex_some {i : Byte} {reg : Reg} (h : regOfIndex i = some reg) :
    i = regIndex reg := by
  unfold regOfIndex at h
  split at h <;> simp only [Option.some.injEq, reduceCtorEq] at h <;> subst h
  all_goals
    rename_i hi
    exact BitVec.eq_of_toNat_eq hi

/-- A DECRYPT payload is of a bad length, or a header byte, a tag and a ciphertext. -/
theorem packet_cases (M : Nat) (w : List Byte) :
    (w.length < 4 ∨ M < w.length - 4) ∨
      ∃ (h : Byte) (T : Tag) (ct : List Byte), ct.length ≤ M ∧ w = h :: (T.toList ++ ct) := by
  match w with
  | [] => exact .inl (.inl (by decide))
  | [_] => exact .inl (.inl (by simp))
  | [_, _] => exact .inl (.inl (by simp))
  | [_, _, _] => exact .inl (.inl (by simp))
  | h :: t₀ :: t₁ :: t₂ :: ct =>
    by_cases hlen : ct.length ≤ M
    · exact .inr ⟨h, tagOf [t₀, t₁, t₂], ct, hlen, packet_eq h t₀ t₁ t₂ ct⟩
    · refine .inl (.inr ?_)
      simp only [List.length_cons]
      omega

section
variable {s t : State} {r : Response}

theorem status_of_exec_raising {i : Instr} {e : Status} (h : exec i s = .next (s.raising e))
    (hexec : exec i s = .next t) (hout : t.outbox = s.outbox ++ [r]) : r.status = e := by
  obtain rfl := Host.Outcome.next.inj (h.symm.trans hexec)
  exact status_of_raising hout

theorem status_of_exec_answering {i : Instr} {s' : State} {a : Response}
    (h : exec i s = .next (s'.answering a)) (hs : s'.outbox = s.outbox)
    (hexec : exec i s = .next t) (hout : t.outbox = s.outbox ++ [r]) : r.status = a.status := by
  obtain rfl := Host.Outcome.next.inj (h.symm.trans hexec)
  exact status_of_answering hs hout

/-- An answer that needs a key is NotKeyed only without one. -/
theorem unkeyed_of_notKeyed {a : Response} (ha : a.status ≠ .notKeyed)
    (hout : (if s.keyValid then s.answering a else s.raising .notKeyed).outbox = s.outbox ++ [r])
    (hr : r.status = .notKeyed) : s.keyValid = false := by
  by_contra hkey
  rw [if_pos (Bool.eq_true_of_not_eq_false hkey)] at hout
  exact ha ((status_of_answering rfl hout).symm.trans hr)

theorem encrypt_notKeyed {p : List Byte} (hexec : exec (.encrypt p) s = .next t)
    (hout : t.outbox = s.outbox ++ [r]) (hr : r.status = .notKeyed) : s.keyValid = false := by
  by_contra hkey
  have hkey := Bool.eq_true_of_not_eq_false hkey
  by_cases hlen : p.length ≤ Config.maxPlain
  · have hsealed := exec_encrypt_sealed hkey rfl hlen rfl
    exact nomatch (status_of_exec_answering hsealed rfl hexec hout).symm.trans hr
  · have hillegal := exec_of_not_layoutOk s (i := .encrypt p) hlen
    exact nomatch (status_of_exec_raising hillegal hexec hout).symm.trans hr

theorem decrypt_notKeyed {w : List Byte} (hexec : exec (.decrypt w) s = .next t)
    (hout : t.outbox = s.outbox ++ [r]) (hr : r.status = .notKeyed) : s.keyValid = false := by
  by_contra hkey
  have hkey := Bool.eq_true_of_not_eq_false hkey
  obtain hw | ⟨h, T, ct, hlen, rfl⟩ := packet_cases Config.maxPlain w
  · exact nomatch
      (status_of_exec_raising (exec_decrypt_malformed hkey hw) hexec hout).symm.trans hr
  cases hdecide : rwDecide Config.params s ⟨h, T, ct⟩ with
  | reject why =>
    have hraise := exec_decrypt_of_reject hkey hlen hdecide
    obtain rfl : why = .notKeyed := (status_of_exec_raising hraise hexec hout).symm.trans hr
    rcases rwDecide_cases Config.params s ⟨h, T, ct⟩ with ⟨_, hd⟩ | ⟨_, _, hd⟩ | ⟨pt, _, _, hd⟩
    · exact nomatch hdecide.symm.trans hd
    · have hstatus := Decision.reject.inj (hdecide.symm.trans hd)
      split at hstatus <;> exact nomatch hstatus
    · exact nomatch hdecide.symm.trans hd
  | accept c z k pt =>
    have haccept := exec_decrypt_of_accept hkey hlen hdecide
    obtain ⟨-, -, -, -, hkept, -⟩ := applyAccept_frame c z k s
    exact nomatch (status_of_exec_answering haccept hkept hexec hout).symm.trans hr

theorem rwProbe_notKeyed {p : List Byte} (hexec : exec (.rwProbe p) s = .next t)
    (hout : t.outbox = s.outbox ++ [r]) (hr : r.status = .notKeyed) :
    s.keyValid = false ∧ ∃ h : Byte, p = [h] := by
  by_cases hlen : p.length = 1
  · obtain ⟨h, rfl⟩ := List.length_eq_one_iff.mp hlen
    rw [exec_rwProbe] at hexec
    obtain rfl := Host.Outcome.next.inj hexec
    exact ⟨unkeyed_of_notKeyed (by simp) hout hr, h, rfl⟩
  · have hillegal := exec_of_not_layoutOk s (i := .rwProbe p) hlen
    exact nomatch (status_of_exec_raising hillegal hexec hout).symm.trans hr

theorem readReg_notKeyed {p : List Byte} (hexec : exec (.readReg p) s = .next t)
    (hout : t.outbox = s.outbox ++ [r]) (hr : r.status = .notKeyed) :
    s.keyValid = false ∧ (p = [0x01] ∨ p = [0x02]) := by
  by_cases hlen : p.length = 1
  case neg =>
    have hillegal := exec_of_not_layoutOk s (i := .readReg p) hlen
    exact nomatch (status_of_exec_raising hillegal hexec hout).symm.trans hr
  obtain ⟨i, rfl⟩ := List.length_eq_one_iff.mp hlen
  cases hreg : regOfIndex i with
  | none =>
    have hillegal := exec_readReg_reserved s hreg
    exact nomatch (status_of_exec_raising hillegal hexec hout).symm.trans hr
  | some reg =>
    rw [exec_readReg s hreg] at hexec
    obtain rfl := Host.Outcome.next.inj hexec
    obtain rfl := regOfIndex_some hreg
    cases reg
    case key => exact nomatch (status_of_raising hout).symm.trans hr
    case eiv => exact ⟨unkeyed_of_notKeyed (by simp) hout hr, .inl rfl⟩
    case div => exact ⟨unkeyed_of_notKeyed (by simp) hout hr, .inr rfl⟩
    all_goals exact nomatch (status_of_answering rfl hout).symm.trans hr

/-- An installing command needs no key. -/
theorem install_not_notKeyed {i : Instr} (hi : installs i = true) (hexec : exec i s = .next t)
    (hout : t.outbox = s.outbox ++ [r]) : r.status ≠ .notKeyed := by
  obtain rfl := perform_of_exec hexec
  obtain ⟨f, g, hf, hg, hperform⟩ := perform_of_installs Config.params s hi
  have hkept : (g s).outbox = s.outbox := by
    obtain rfl | ⟨-, rfl⟩ := hg <;> rfl
  rw [hperform s rfl rfl] at hout
  obtain ⟨e, he, hraise⟩ | ⟨K, e, d, hinstall⟩ := hf
  · rw [hraise] at hout
    exact status_of_answering hkept hout ▸ he
  · rw [hinstall] at hout
    exact status_of_answering hkept hout ▸ by simp

theorem keyless_not_notKeyed {i : Instr} (hi : keyless i = true) (hexec : exec i s = .next t)
    (hout : t.outbox = s.outbox ++ [r]) : r.status ≠ .notKeyed := by
  obtain rfl := perform_of_exec hexec
  obtain ⟨a, -, ha, hanswer⟩ := perform_keyless Config.params hi
  rw [hanswer] at hout
  exact status_of_answering rfl hout ▸ ha

end

/-- No command takes the key away. -/
theorem perform_keeps_key {i : Instr} {s : State} (hkey : s.keyValid = true) :
    (perform Config.params i s).keyValid = true := by
  cases hi : installs i with
  | false =>
    obtain ⟨-, hkeyed, -⟩ := writeFootprints i s _ (exec_eq_perform i s)
    exact (hkeyed hi).2.trans hkey
  | true =>
    obtain ⟨f, g, hf, hg, hperform⟩ := perform_of_installs Config.params s hi
    have hkept : (g s).keyValid = true := by
      obtain rfl | ⟨-, rfl⟩ := hg <;> exact hkey
    rw [hperform s rfl rfl]
    obtain ⟨e, -, hraise⟩ | ⟨K, e, d, hinstall⟩ := hf
    · rw [hraise]
      exact hkept
    · rw [hinstall]
      rfl

/-- Settles O47: each command that needs a key by its own equation, the others by their group. -/
theorem notKeyedExactlyWithoutAKey : Obligations.NotKeyedExactlyWithoutAKey := by
  refine ⟨fun s hkey => ?_, fun i s t r hexec hout hr => ?_, fun i s t hexec hkey => ?_⟩
  · have hif := ne_true_of_eq_false hkey
    refine ⟨fun p hlen => ?_, fun w => exec_decrypt_unkeyed w hkey, fun h => ?_, ?_, ?_⟩
    · rw [exec_encrypt s hlen, if_neg hif]
    · rw [exec_rwProbe, if_neg hif]
    · rw [exec_readReg s (r := .eiv) rfl, readRegister_eiv, if_neg hif]
    · rw [exec_readReg s (r := .div) rfl, readRegister_div, if_neg hif]
  · cases hi : installs i with
    | true => exact absurd hr (install_not_notKeyed hi hexec hout)
    | false =>
      cases hless : keyless i with
      | true => exact absurd hr (keyless_not_notKeyed hless hexec hout)
      | false =>
        cases i <;> simp only [keyless, installs, Bool.true_eq_false] at hi hless
        case encrypt p => exact ⟨encrypt_notKeyed hexec hout hr, .inl ⟨p, rfl⟩⟩
        case decrypt w => exact ⟨decrypt_notKeyed hexec hout hr, .inr (.inl ⟨w, rfl⟩)⟩
        case rwProbe p =>
          obtain ⟨hkey, h, rfl⟩ := rwProbe_notKeyed hexec hout hr
          exact ⟨hkey, .inr (.inr (.inl ⟨h, rfl⟩))⟩
        case readReg p =>
          obtain ⟨hkey, rfl | rfl⟩ := readReg_notKeyed hexec hout hr
          · exact ⟨hkey, .inr (.inr (.inr (.inl rfl)))⟩
          · exact ⟨hkey, .inr (.inr (.inr (.inr rfl)))⟩
  · obtain rfl := perform_of_exec hexec
    exact perform_keeps_key hkey

/-! ### The commands that answer OK without a key -/

/-- The indices 3 to 7 of READ_REG are the four event counters and STATUS. -/
theorem readReg_index_cases {i : Byte} (hlo : 0x03 ≤ i.toNat) (hhi : i.toNat ≤ 0x07) :
    i = 0x03 ∨ i = 0x04 ∨ i = 0x05 ∨ i = 0x06 ∨ i = 0x07 := by
  bv_omega

theorem exec_readReg_ok (s : State) {i : Byte} (hlo : 0x03 ≤ i.toNat) (hhi : i.toNat ≤ 0x07) :
    ∃ y : List Byte, exec (.readReg [i]) s = .next (s.answering ⟨.ok, 0x00, y⟩) := by
  obtain rfl | rfl | rfl | rfl | rfl := readReg_index_cases hlo hhi
  · exact ⟨_, exec_readReg s (r := .good) rfl⟩
  · exact ⟨_, exec_readReg s (r := .late) rfl⟩
  · exact ⟨_, exec_readReg s (r := .lost) rfl⟩
  · exact ⟨_, exec_readReg s (r := .resync) rfl⟩
  · exact ⟨_, exec_readReg s (r := .status) rfl⟩

section
variable {s t : State} {r : Response}

theorem rwProbe_ok_keyed {p : List Byte} (hexec : exec (.rwProbe p) s = .next t)
    (hout : t.outbox = s.outbox ++ [r]) (hok : r.status = .ok) : s.keyValid = true := by
  by_contra hkey
  by_cases hlen : p.length = 1
  · obtain ⟨h, rfl⟩ := List.length_eq_one_iff.mp hlen
    have hraise := (exec_rwProbe s h).trans (by rw [if_neg hkey])
    exact nomatch (status_of_exec_raising hraise hexec hout).symm.trans hok
  · have hillegal := exec_of_not_layoutOk s (i := .rwProbe p) hlen
    exact nomatch (status_of_exec_raising hillegal hexec hout).symm.trans hok

theorem readReg_ok_unkeyed {p : List Byte} (hkey : s.keyValid = false)
    (hexec : exec (.readReg p) s = .next t) (hout : t.outbox = s.outbox ++ [r])
    (hok : r.status = .ok) : ∃ n : Byte, p = [n] ∧ 0x03 ≤ n.toNat ∧ n.toNat ≤ 0x07 := by
  have hif := ne_true_of_eq_false hkey
  by_cases hlen : p.length = 1
  case neg =>
    have hillegal := exec_of_not_layoutOk s (i := .readReg p) hlen
    exact nomatch (status_of_exec_raising hillegal hexec hout).symm.trans hok
  obtain ⟨n, rfl⟩ := List.length_eq_one_iff.mp hlen
  refine ⟨n, rfl, ?_⟩
  cases hreg : regOfIndex n with
  | none =>
    exact nomatch (status_of_exec_raising (exec_readReg_reserved s hreg) hexec hout).symm.trans hok
  | some reg =>
    have hread := exec_readReg s hreg
    obtain rfl := regOfIndex_some hreg
    cases reg
    case key => exact nomatch (status_of_exec_raising hread hexec hout).symm.trans hok
    case eiv =>
      rw [readRegister_eiv, if_neg hif] at hread
      exact nomatch (status_of_exec_raising hread hexec hout).symm.trans hok
    case div =>
      rw [readRegister_div, if_neg hif] at hread
      exact nomatch (status_of_exec_raising hread hexec hout).symm.trans hok
    all_goals decide

/-- The commands that answer OK without a key. -/
theorem ok_unkeyed {i : Instr} (hkey : s.keyValid = false) (hexec : exec i s = .next t)
    (hout : t.outbox = s.outbox ++ [r]) (hok : r.status = .ok) :
    keyless i = true ∨ installs i = true ∨
      ∃ n : Byte, i = .readReg [n] ∧ 0x03 ≤ n.toNat ∧ n.toNat ≤ 0x07 := by
  have hkeyed {α : Prop} (h : s.keyValid = true) : α := absurd (hkey.symm.trans h) (by simp)
  cases i
  case encrypt p =>
    by_cases hlen : p.length ≤ Config.maxPlain
    · have hraise := (exec_encrypt s hlen).trans (by rw [if_neg (ne_true_of_eq_false hkey)])
      exact nomatch (status_of_exec_raising hraise hexec hout).symm.trans hok
    · have hillegal := exec_of_not_layoutOk s (i := .encrypt p) hlen
      exact nomatch (status_of_exec_raising hillegal hexec hout).symm.trans hok
  case decrypt w =>
    have hraise := exec_decrypt_unkeyed w hkey
    exact nomatch (status_of_exec_raising hraise hexec hout).symm.trans hok
  case rwProbe p => exact hkeyed (rwProbe_ok_keyed hexec hout hok)
  case readReg p =>
    obtain ⟨n, rfl, hn⟩ := readReg_ok_unkeyed hkey hexec hout hok
    exact .inr (.inr ⟨n, rfl, hn⟩)
  case setKey p => exact .inr (.inl rfl)
  case new p => exact .inr (.inl rfl)
  all_goals exact .inl rfl

end

/-- Settles O46: the answers by each command's equation, the converse by `ok_unkeyed`. -/
theorem keylessCommandsIgnoreTheState : Obligations.KeylessCommandsIgnoreTheState := by
  refine ⟨fun i hi => ?_, fun s => ⟨fun p => ⟨_, exec_gfZero s p⟩,
    fun a b hab => ⟨_, exec_gfXor s hab⟩, fun X => ⟨_, exec_gfDouble s X⟩,
    fun X => ⟨_, exec_gfTriple s X⟩, fun K N Pt hlen => ⟨_, exec_ocbEncrypt s K N hlen⟩,
    fun K N Ct hlen => ⟨truncateTag (ocbDec Config.port K N Ct).2, _,
      (exec_ocbDecrypt s K N _ hlen).trans (if_pos rfl)⟩⟩,
    fun s K e d => ⟨_, exec_setKey_installs s K e d, rfl⟩, fun s R answers hrng => ?_,
    fun i hlo hhi s => exec_readReg_ok s hlo hhi,
    fun i t r hexec hout hok => ok_unkeyed rfl hexec hout hok⟩
  · obtain ⟨r, -, -, hanswer⟩ := perform_keyless Config.params hi
    exact ⟨r, fun s => (exec_eq_perform i s).trans (by rw [hanswer])⟩
  · refine ⟨_, exec_new s, ?_⟩
    rw [rngFill_cons hrng]
    rfl

end Sys2Proof.Machine
end

section
/-! PROOFS. The invariant of every run (10_state.md R22, R31; 30_encoding.md R49): it holds at
reset, every update of the state keeps it, and so does every step. -/

namespace Sys2Proof.Machine

/-! ### Responses -/

theorem responseOk_raising (e : Status) : ResponseOk ⟨e, 0x00, []⟩ :=
  ⟨by simp, by simp, fun _ => ⟨rfl, rfl⟩⟩

theorem responseOk_ok {info : Byte} {payload : List Byte} (hinfo : info.toNat ≤ 3)
    (hlen : payload.length ≤ 65535) : ResponseOk ⟨.ok, info, payload⟩ :=
  ⟨hlen, hinfo, fun h => absurd rfl h⟩

theorem classCode_le (k : PacketClass) : (classCode k).toNat ≤ 3 := by
  cases k <;> decide

/-! ### What keeps the invariant -/

section
variable {s : State}

theorem Inv.answering (h : Inv s) {r : Response} (hr : ResponseOk r) : Inv (s.answering r) := by
  obtain ⟨hindexed, hfresh, hresponses⟩ := h
  refine ⟨hindexed, hfresh, fun r' hr' => ?_⟩
  rw [answering_outbox, List.mem_append, List.mem_singleton] at hr'
  obtain hr' | rfl := hr'
  · exact hresponses r' hr'
  · exact hr

theorem Inv.raising (h : Inv s) (e : Status) : Inv (s.raising e) :=
  h.answering (responseOk_raising e)

theorem histIndexed_of_empty (h : s.hist = emptyHist) : HistIndexed s := by
  intro i hi c hc
  rw [h, getElem_emptyHist] at hc
  exact nomatch hc

theorem Inv.install (h : Inv s) (K : Key) (e d : Counter) : Inv (install K e d s) := by
  obtain ⟨-, -, hresponses⟩ := h
  exact ⟨histIndexed_of_empty rfl, fun hkey => (nomatch hkey), hresponses⟩

/-- An acceptance writes a counter in the slot of its own low byte. -/
theorem Inv.applyAccept (h : Inv s) (hkey : s.keyValid = true) (c : Counter) (z : Int)
    (k : PacketClass) : Inv (applyAccept c z k s) := by
  obtain ⟨hindexed, -, hresponses⟩ := h
  obtain ⟨hvalid, -, -, -, hout, -⟩ := applyAccept_frame c z k s
  refine ⟨fun i hi c' hc' => ?_, fun hunkeyed => ?_, by rwa [hout]⟩
  · simp only [applyAccept_hist, Vector.getElem_set] at hc'
    split at hc'
    next hslot =>
      obtain rfl := Option.some.inj hc'
      rw [← slotOf_val, hslot]
    next => exact hindexed i hi c' hc'
  · exact absurd (hvalid.symm.trans hunkeyed |>.symm.trans hkey) (by simp)

theorem Inv.resetBlock (h : Inv s) : Inv (resetBlock s) := by
  obtain ⟨-, -, hresponses⟩ := h
  exact ⟨histIndexed_of_empty rfl, fun _ => ⟨getElem_emptyHist, rfl, rfl, rfl, rfl⟩, hresponses⟩

/-- The invariant says nothing of the inputs that wait. -/
theorem Inv.withInbox (h : Inv s) (inbox : List HostInput) : Inv { s with inbox := inbox } := h

end

/-! ### Commands and steps -/

/-- The OK answers of the commands that write no state fit RLEN. -/
theorem answer_length {i : Instr} {s : State} {r : Response} (hwf : i.WellFormed)
    (hi : installs i = false) (hpacket : ∀ p : List Byte, i ≠ .encrypt p ∧ i ≠ .decrypt p)
    (h : perform Config.params i s = s.answering r) : r.payload.length ≤ 65535 := by
  obtain ⟨r', hlen, hr', -⟩ := perform_alike Config.params hi hpacket (sameView_refl s)
  obtain rfl : r = r' := answering_injective (h.symm.trans hr')
  have hbound : i.payload.length ≤ 65535 := hwf
  omega

/-- A command that a frame carries keeps the invariant, over the cases of `perform_cases` and
`perform_install_cases`. -/
theorem Inv.perform {s : State} {i : Instr} (h : Inv s) (hwf : i.WellFormed) :
    Inv (perform Config.params i s) := by
  have hmax := maxPlain_le
  cases hi : installs i with
  | false =>
    rcases perform_cases i s hi with
      ⟨e, _, ht⟩ | ⟨b, y, hb, hne, hnd, ht⟩ | ⟨p, rfl, _, hlen, ht⟩ |
      ⟨_, _, _, _, ct, pt, c, z, k, rfl, hlen, hkey, _, _, _, _, hverify, ht⟩ <;> rw [ht]
    · exact h.raising e
    · exact h.answering (responseOk_ok hb (answer_length hwf hi (fun p => ⟨hne p, hnd p⟩) ht))
    · refine Inv.answering (s := { s with eiv := s.eiv + 1 }) h (responseOk_ok (by simp) ?_)
      rw [sealPacket_length]
      omega
    · refine (h.applyAccept hkey c z k).answering (responseOk_ok (classCode_le k) ?_)
      rw [ocbVerify_length hverify]
      omega
  | true =>
    obtain ⟨s', hs', hend⟩ := perform_install_cases i s hi
    have hinv : Inv s' := by
      obtain rfl | ⟨-, rfl⟩ := hs' <;> exact h
    obtain ⟨e, _, ht⟩ | ⟨K, e, d, ht⟩ := hend <;> rw [ht]
    · exact hinv.raising e
    · exact (hinv.install K e d).answering (responseOk_ok (by simp) (by simp))

/-- Settles O54: at reset every slot is Empty and no response has been returned. -/
theorem resetMeetsTheInvariant : Obligations.ResetMeetsTheInvariant :=
  ⟨histIndexed_of_empty rfl, fun _ => ⟨getElem_emptyHist, rfl, rfl, rfl, rfl⟩,
    fun _ hr => nomatch hr⟩

/-- Settles O55, input by input: a frame that decodes is a well-formed command, and a reserved OPC
raises. -/
theorem stepKeepsTheInvariant : Obligations.StepKeepsTheInvariant := by
  intro s t h hstep
  match hin : s.inbox with
  | [] =>
    obtain rfl := Host.Outcome.next.inj ((step_of_no_input hin).symm.trans hstep)
    exact h
  | .reset :: rest =>
    obtain rfl := Host.Outcome.next.inj ((step_of_reset hin).symm.trans hstep)
    exact (h.withInbox rest).resetBlock
  | .frame bytes :: rest =>
    cases hdecode : decode bytes with
    | ok i =>
      obtain ⟨-, hwf⟩ := encodeOfDecode bytes i hdecode
      rw [step_of_decode_ok hin hdecode] at hstep
      obtain rfl := perform_of_exec hstep
      exact (h.withInbox rest).perform hwf
    | error e =>
      rw [step_of_decode_error hin hdecode] at hstep
      cases e with
      | truncatedFrame => exact nomatch hstep
      | runOnFrame => exact nomatch hstep
      | reservedOpcode opc =>
        rw [undecoded_reservedOpcode] at hstep
        obtain rfl := Host.Outcome.next.inj hstep
        exact (h.withInbox rest).raising .illegalCommand

end Sys2Proof.Machine
end

section
/-! PROOFS. The calls to the permutation port (60_exceptions.md R157): how many there are, and that
a command's effect follows from their answers. -/

namespace Sys2Proof.Machine

/-! ### Counting the calls -/

/-- The main loop takes all blocks but the last (41_ocb_core.md R83). -/
theorem loopBlocks_eq_ceil (L : Nat) : loopBlocks L = (L + 15) / 16 - 1 := by
  rw [loopBlocks_eq]
  omega

theorem encLoopCalls_countP (K : Key) (m : Nat) (offset : Block) (msg : List Byte) :
    (encLoopCalls K m offset msg).countP isForward = m ∧
      (encLoopCalls K m offset msg).countP (!isForward ·) = 0 := by
  induction m generalizing offset msg with
  | zero => exact ⟨rfl, rfl⟩
  | succ m ih =>
    obtain ⟨hfwd, hinv⟩ := ih (dbl offset) (msg.drop 16)
    simp only [encLoopCalls, List.countP_cons, hfwd, hinv]
    exact ⟨rfl, rfl⟩

theorem decLoopCalls_countP (K : Key) (m : Nat) (offset : Block) (msg : List Byte) :
    (decLoopCalls K m offset msg).countP isForward = 0 ∧
      (decLoopCalls K m offset msg).countP (!isForward ·) = m := by
  induction m generalizing offset msg with
  | zero => exact ⟨rfl, rfl⟩
  | succ m ih =>
    obtain ⟨hfwd, hinv⟩ := ih (dbl offset) (msg.drop 16)
    simp only [decLoopCalls, List.countP_cons, hfwd, hinv]
    exact ⟨rfl, rfl⟩

/-- Three calls frame the loop's: the offset before it, the pad and the tag after it. -/
theorem ocbEncCalls_countP (π : PermPort) (K : Key) (N : Block) (Pt : List Byte) :
    (ocbEncCalls π K N Pt).countP isForward = (Pt.length + 15) / 16 - 1 + 3 ∧
      (ocbEncCalls π K N Pt).countP (!isForward ·) = 0 := by
  obtain ⟨hfwd, hinv⟩ := encLoopCalls_countP K (loopBlocks Pt.length) (π.E K N) Pt
  rw [← loopBlocks_eq_ceil]
  simp only [ocbEncCalls, List.countP_cons, List.countP_append, hfwd, hinv]
  exact ⟨rfl, rfl⟩

theorem ocbDecCalls_countP (π : PermPort) (K : Key) (N : Block) (Ct : List Byte) :
    (ocbDecCalls π K N Ct).countP isForward = 3 ∧
      (ocbDecCalls π K N Ct).countP (!isForward ·) = (Ct.length + 15) / 16 - 1 := by
  obtain ⟨hfwd, hinv⟩ := decLoopCalls_countP K (loopBlocks Ct.length) (π.E K N) Ct
  rw [← loopBlocks_eq_ceil]
  simp only [ocbDecCalls, List.countP_cons, List.countP_append, hfwd, hinv]
  exact ⟨rfl, rfl⟩

/-! ### Which calls a command makes -/

section
variable {P : Params} {s : State}

theorem portCalls_ocbEncrypt (K : Key) (N : Block) {Pt : List Byte}
    (hlen : Pt.length ≤ P.maxPlain) :
    portCalls P (.ocbEncrypt (K.toList ++ N.toList ++ Pt)) s = ocbEncCalls P.port K N Pt := by
  simp only [portCalls, ocbEncryptOperands_append K N hlen]

theorem portCalls_ocbDecrypt (K : Key) (N : Block) (T : Tag) {Ct : List Byte}
    (hlen : Ct.length ≤ P.maxPlain) :
    portCalls P (.ocbDecrypt (K.toList ++ N.toList ++ T.toList ++ Ct)) s =
      ocbDecCalls P.port K N Ct := by
  simp only [portCalls, ocbDecryptOperands_append K N T hlen]

theorem portCalls_encrypt {Pt : List Byte} (hlen : Pt.length ≤ P.maxPlain)
    (hkey : s.keyValid = true) :
    portCalls P (.encrypt Pt) s = ocbEncCalls P.port s.key (le16 (ivIncrement s.eiv)) Pt :=
  if_pos ⟨hlen, hkey⟩

theorem portCalls_decrypt_unseen {h : Byte} {T : Tag} {ct : List Byte}
    (hlen : ct.length ≤ P.maxPlain) (hkey : s.keyValid = true)
    (hunseen : seen s (candidate P.window s.div h) = false) :
    portCalls P (.decrypt (h :: (T.toList ++ ct))) s =
      ocbDecCalls P.port s.key (le16 (candidate P.window s.div h)) ct := by
  simp only [portCalls, decryptCalls, hkey, if_true, wireOperand_packet h T hlen, hunseen,
    Bool.false_eq_true, if_false]

end

/-- The statuses that a command raises before it reaches the port. -/
def RaisedBeforePort (e : Status) : Prop :=
  e = .illegalCommand ∨ e = .notKeyed ∨ e = .malformedPacket ∨ e = .replay

section
variable {P : Params} {s : State} {r : Response}

/-- A command that is known to answer with another status has not raised one of these. -/
theorem not_raisedBeforePort {s' : State} {a : Response} {α : Prop} (hs : s'.outbox = s.outbox)
    (ha : ¬ RaisedBeforePort a.status) (hout : (s'.answering a).outbox = s.outbox ++ [r])
    (hr : RaisedBeforePort r.status) : α :=
  absurd (status_of_answering hs hout ▸ hr) ha

theorem not_raisedBeforePort_ok : ¬ RaisedBeforePort .ok := by
  simp [RaisedBeforePort]

theorem not_raisedBeforePort_authenticationFailure :
    ¬ RaisedBeforePort .authenticationFailure := by
  simp [RaisedBeforePort]

theorem portCalls_ocbEncrypt_raised {p : List Byte}
    (hout : (perform P (.ocbEncrypt p) s).outbox = s.outbox ++ [r])
    (hr : RaisedBeforePort r.status) : portCalls P (.ocbEncrypt p) s = [] := by
  simp only [perform, ocbEncryptCommand] at hout
  simp only [portCalls]
  cases hop : ocbEncryptOperands P.maxPlain p with
  | none => rfl
  | some operands =>
    simp only [hop] at hout
    exact not_raisedBeforePort rfl not_raisedBeforePort_ok hout hr

theorem portCalls_ocbDecrypt_raised {p : List Byte}
    (hout : (perform P (.ocbDecrypt p) s).outbox = s.outbox ++ [r])
    (hr : RaisedBeforePort r.status) : portCalls P (.ocbDecrypt p) s = [] := by
  simp only [perform, ocbDecryptCommand] at hout
  simp only [portCalls]
  cases hop : ocbDecryptOperands P.maxPlain p with
  | none => rfl
  | some operands =>
    simp only [hop] at hout
    split at hout
    · exact not_raisedBeforePort rfl not_raisedBeforePort_ok hout hr
    · exact not_raisedBeforePort rfl not_raisedBeforePort_authenticationFailure hout hr

theorem portCalls_encrypt_raised {p : List Byte}
    (hout : (perform P (.encrypt p) s).outbox = s.outbox ++ [r])
    (hr : RaisedBeforePort r.status) : portCalls P (.encrypt p) s = [] := by
  refine if_neg fun ⟨hlen, hkey⟩ => ?_
  rw [perform, encryptCommand, if_pos hlen, if_pos hkey] at hout
  exact not_raisedBeforePort (s' := { s with eiv := ivIncrement s.eiv }) rfl
    not_raisedBeforePort_ok hout hr

theorem portCalls_decrypt_raised {w : List Byte}
    (hout : (perform P (.decrypt w) s).outbox = s.outbox ++ [r])
    (hr : RaisedBeforePort r.status) : portCalls P (.decrypt w) s = [] := by
  simp only [perform, decryptCommand] at hout
  simp only [portCalls, decryptCalls]
  by_cases hkey : s.keyValid = true
  case neg => exact if_neg hkey
  rw [if_pos hkey] at hout ⊢
  cases hwire : wireOperand P.maxPlain w with
  | none => rfl
  | some packet =>
    simp only [hwire] at hout ⊢
    rcases rwDecide_cases P s packet with ⟨hseen, _⟩ | ⟨_, _, hd⟩ | ⟨pt, _, _, hd⟩
    · exact if_pos hseen
    · simp only [hd] at hout
      refine not_raisedBeforePort rfl ?_ hout hr
      split <;> simp [RaisedBeforePort]
    · simp only [hd] at hout
      obtain ⟨-, -, -, -, hkept, -⟩ := applyAccept_frame (candidate P.window s.div packet.header)
        (candidateDistance P.window s.div packet.header)
        (classOf P.window (candidateDistance P.window s.div packet.header)) s
      exact not_raisedBeforePort hkept not_raisedBeforePort_ok hout hr

/-- A command that raises one of these statuses makes no call. -/
theorem portCalls_raised {i : Instr} (hout : (perform P i s).outbox = s.outbox ++ [r])
    (hr : RaisedBeforePort r.status) : portCalls P i s = [] := by
  cases i
  case ocbEncrypt p => exact portCalls_ocbEncrypt_raised hout hr
  case ocbDecrypt p => exact portCalls_ocbDecrypt_raised hout hr
  case encrypt p => exact portCalls_encrypt_raised hout hr
  case decrypt p => exact portCalls_decrypt_raised hout hr
  all_goals rfl

end

/-- Settles O28: the counts of `ocbEncCalls` and `ocbDecCalls`, and `portCalls_raised`. -/
theorem portCallCounts : Obligations.PortCallCounts := by
  refine fun P s => ⟨fun K N Pt hlen => ?_, fun Pt hlen hkey => ?_, fun K N T Ct hlen => ?_,
    fun h t₀ t₁ t₂ Ct hlen hkey hunseen => ?_, fun i t r ht hout hr => ?_,
    fun p => ⟨rfl, rfl, rfl, rfl, rfl, rfl, rfl, rfl⟩⟩
  · rw [portCalls_ocbEncrypt K N hlen]
    exact ocbEncCalls_countP P.port K N Pt
  · rw [portCalls_encrypt hlen hkey]
    exact ocbEncCalls_countP P.port s.key _ Pt
  · rw [portCalls_ocbDecrypt K N T hlen]
    exact ocbDecCalls_countP P.port K N Ct
  · rw [packet_eq, portCalls_decrypt_unseen hlen hkey hunseen]
    exact ocbDecCalls_countP P.port s.key _ Ct
  · subst ht
    exact portCalls_raised hout hr

/-! ### The effect follows from the answers -/

section
variable {π π' : PermPort} {K : Key} {N : Block}

theorem encLoop_congr {m : Nat} {offset : Block} {msg : List Byte} (sum : Block)
    (h : ∀ q ∈ encLoopCalls K m offset msg, portAnswer π' q = portAnswer π q) :
    encLoop (π'.E K) m offset sum msg = encLoop (π.E K) m offset sum msg := by
  induction m generalizing offset sum msg with
  | zero => rfl
  | succ m ih =>
    obtain ⟨hblock, hrest⟩ := List.forall_mem_cons.mp h
    simp only [portAnswer] at hblock
    simp only [encLoop, hblock, ih _ hrest]

theorem decLoop_congr {m : Nat} {offset : Block} {msg : List Byte} (sum : Block)
    (h : ∀ q ∈ decLoopCalls K m offset msg, portAnswer π' q = portAnswer π q) :
    decLoop (π'.Einv K) m offset sum msg = decLoop (π.Einv K) m offset sum msg := by
  induction m generalizing offset sum msg with
  | zero => rfl
  | succ m ih =>
    obtain ⟨hblock, hrest⟩ := List.forall_mem_cons.mp h
    simp only [portAnswer] at hblock
    simp only [decLoop, hblock, ih _ hrest]

theorem ocbEnc_congr {Pt : List Byte}
    (h : ∀ q ∈ ocbEncCalls π K N Pt, portAnswer π' q = portAnswer π q) :
    ocbEnc π' K N Pt = ocbEnc π K N Pt := by
  simp only [ocbEncCalls, List.forall_mem_cons, List.forall_mem_append, portAnswer,
    padBlock] at h
  obtain ⟨hoffset, hloop, hpad, htag, -⟩ := h
  simp only [ocbEnc, hoffset, encLoop_congr zeroBlock hloop, padBlock, hpad, tagBlock, htag]

theorem ocbDec_congr {Ct : List Byte}
    (h : ∀ q ∈ ocbDecCalls π K N Ct, portAnswer π' q = portAnswer π q) :
    ocbDec π' K N Ct = ocbDec π K N Ct := by
  simp only [ocbDecCalls, List.forall_mem_cons, List.forall_mem_append, portAnswer,
    padBlock] at h
  obtain ⟨hoffset, hloop, hpad, htag, -⟩ := h
  simp only [ocbDec, hoffset, decLoop_congr zeroBlock hloop, padBlock, hpad, tagBlock, htag]

theorem ocbVerify_congr {T : Tag} {Ct : List Byte}
    (h : ∀ q ∈ ocbDecCalls π K N Ct, portAnswer π' q = portAnswer π q) :
    ocbVerify π' K N T Ct = ocbVerify π K N T Ct := by
  simp only [ocbVerify, ocbDec_congr h]

end

section
variable {P P' : Params} {s : State} (hmax : P'.maxPlain = P.maxPlain)
  (hwindow : P'.window = P.window)

include hmax in
theorem ocbEncryptCommand_congr {p : List Byte}
    (h : ∀ q ∈ portCalls P (.ocbEncrypt p) s, portAnswer P'.port q = portAnswer P.port q) :
    ocbEncryptCommand P' p s = ocbEncryptCommand P p s := by
  simp only [portCalls] at h
  simp only [ocbEncryptCommand, hmax]
  cases hop : ocbEncryptOperands P.maxPlain p with
  | none => rfl
  | some operands =>
    simp only [hop] at h
    simp only [ocbEnc_congr h]

include hmax in
theorem ocbDecryptCommand_congr {p : List Byte}
    (h : ∀ q ∈ portCalls P (.ocbDecrypt p) s, portAnswer P'.port q = portAnswer P.port q) :
    ocbDecryptCommand P' p s = ocbDecryptCommand P p s := by
  simp only [portCalls] at h
  simp only [ocbDecryptCommand, hmax]
  cases hop : ocbDecryptOperands P.maxPlain p with
  | none => rfl
  | some operands =>
    simp only [hop] at h
    simp only [ocbVerify_congr h]

include hmax in
theorem encryptCommand_congr {p : List Byte}
    (h : ∀ q ∈ portCalls P (.encrypt p) s, portAnswer P'.port q = portAnswer P.port q) :
    encryptCommand P' p s = encryptCommand P p s := by
  simp only [encryptCommand, hmax]
  by_cases hlen : p.length ≤ P.maxPlain
  case neg => rw [if_neg hlen, if_neg hlen]
  by_cases hkey : s.keyValid = true
  case neg => rw [if_neg hkey, if_neg hkey]
  rw [portCalls_encrypt hlen hkey] at h
  simp only [sealPacket, ocbEnc_congr h]

include hmax hwindow in
theorem decryptCommand_congr {w : List Byte}
    (h : ∀ q ∈ portCalls P (.decrypt w) s, portAnswer P'.port q = portAnswer P.port q) :
    decryptCommand P' w s = decryptCommand P w s := by
  by_cases hkey : s.keyValid = true
  case neg => rw [decryptCommand, decryptCommand, if_neg hkey, if_neg hkey]
  obtain hw | ⟨b, T, ct, hlen, rfl⟩ := packet_cases P.maxPlain w
  · simp only [decryptCommand, hmax, wireOperand_none hw]
  have hdecide : rwDecide P' s ⟨b, T, ct⟩ = rwDecide P s ⟨b, T, ct⟩ := by
    simp only [rwDecide, hwindow]
    by_cases hseen : seen s (candidate P.window s.div b) = true
    · rw [if_pos hseen, if_pos hseen]
    · rw [portCalls_decrypt_unseen hlen hkey (Bool.eq_false_of_not_eq_true hseen)] at h
      simp only [ocbVerify_congr h]
  simp only [decryptCommand, hmax, wireOperand_packet b T hlen, hdecide]

end

/-- Settles O29: four commands call the port, and each is fixed by the answers to its calls. -/
theorem commandsDependOnlyOnTheirPortCalls : Obligations.CommandsDependOnlyOnTheirPortCalls := by
  refine fun P P' i s hmax hwindow h => ⟨?_, exec_eq_perform i s⟩
  cases i
  case ocbEncrypt p => exact ocbEncryptCommand_congr hmax h
  case ocbDecrypt p => exact ocbDecryptCommand_congr hmax h
  case encrypt p => exact encryptCommand_congr hmax h
  case decrypt w => exact decryptCommand_congr hmax hwindow h
  case rwProbe p => simp only [perform, rwProbeCommand, hwindow]
  all_goals rfl

end Sys2Proof.Machine
end
